-- ==== Sys2Proof/Word.lean ====
section
/-! DEFINITION. The word types: a word is 32 bits, a byte 8, an immediate field 16 (rule R8), and a register
index is one of 32 (rules R10 and R12). -/

namespace Sys2Proof

/-- A 32-bit word: a register, an address, an instruction (rules R6, R8). -/
abbrev Word := BitVec 32

/-- One byte of memory (rule R8). -/
abbrev Byte := BitVec 8

/-- The 16-bit immediate field of the I layout (rule R52). -/
abbrev Imm16 := BitVec 16

/-- A register index. It comes only from a 5-bit field, so it is always 0 to 31 (rule R12). -/
abbrev RegIdx := Fin 32

end Sys2Proof
end

