-- ==== Sys2Proof/Machine/Flags.lean ====
section
/-! DEFINITION. There are no flags (rule R16). What the instruction set has in their place is the two comparisons,
which write 0 or 1 to a whole general register (rules R80, R98, R99). -/

namespace Sys2Proof.Machine

/-- A condition as a word, zero-extended. -/
def truthWord (b : Bool) : Word := if b then 1 else 0

/-- `zext32(a <s b)`: compares the values as two's complement integers, not through a subtraction (rule R80). -/
def lessSigned (a b : Word) : Word := truthWord (decide (a.toInt < b.toInt))

/-- `zext32(a <u b)`: compares the values as unsigned integers (rule R80). -/
def lessUnsigned (a b : Word) : Word := truthWord (decide (a.toNat < b.toNat))

end Sys2Proof.Machine
end

