-- ==== Sys2Proof/Machine/Operands.lean ====
section
/-! DEFINITION. The operand forms: an immediate sign-extended, zero-extended or placed in the upper half (rule
R53), and the one addressing mode, base plus signed byte offset (rule R125). -/

namespace Sys2Proof.Machine

/-- `sext32(imm)` (rules R8, R53). -/
def sext32 (imm : Imm16) : Word := imm.signExtend 32

/-- `zext32(imm)` (rules R8, R53). -/
def zext32 (imm : Imm16) : Word := imm.setWidth 32

/-- The low half of a word placed in the upper half, the lower half 0 (rules R53, R118). -/
def upperHalf (b : Word) : Word := b.extractLsb' 0 16 ++ (0 : BitVec 16)

end Sys2Proof.Machine
end

