-- ==== Sys2Proof/Machine/Alu.lean ====
section
/-! DEFINITION. The ALU (rules R79, R80): nine operations on two words, one word out, no flag and no trap. -/

namespace Sys2Proof.Machine

/-- The operations of rule R79. -/
inductive AluOp where
  | add
  | sub
  | and
  | or
  | xor
  | nor
  | slt
  | sltu
  | lui
  deriving DecidableEq, Repr

/-- `alu(op, a, b)`, rule R79. -/
def alu (op : AluOp) (a b : Word) : Word :=
  match op with
  | .add => a + b
  | .sub => a - b
  | .and => a &&& b
  | .or => a ||| b
  | .xor => a ^^^ b
  | .nor => ~~~(a ||| b)
  | .slt => lessSigned a b
  | .sltu => lessUnsigned a b
  | .lui => upperHalf b

/-- The effective address of the load and store families: base plus sign-extended offset, modulo 2^32, with no
scaling and no check (rules R125, R135). -/
def effectiveAddress (base : Word) (imm : Imm16) : Word := alu .add base (sext32 imm)

end Sys2Proof.Machine
end

