-- ==== Sys2Proof/Config.lean ====
section
/-! DEFINITION. The parameters the spec leaves open (rule R7), as plain data. A machine carries its own
configuration, which no step changes (log entry 10), so a claim about every state is a claim about every
choice of the parameters. The default values are `Codes.mipsI` (Decode.lean) and `Config.standard`
(Machine/Platform.lean). No value of this hardware is a free value: rule R23 makes the core a function. -/

namespace Sys2Proof

/-- Memory contents: address and byte pairs, in the canonical form of `Memory.wf` (Machine/Memory.lean). -/
abbrev Memory := List Host.Cell

/-- The opcode of the register-op family. The source fixes it (rules R6, R56). -/
def registerOpcode : BitVec 6 := 0

/-- The function code of `syscall`. The source fixes it (rules R6, R60). -/
def syscallFunct : BitVec 6 := 12

/-- The parameters `FN_*`, `OPC_*`, `LOAD_RESERVED` and `STORE_RESERVED` of rule R7: every selector number
but the two the source fixes, in one table so that they can be replaced (rule R56). -/
structure Codes where
  fnAdd : BitVec 6
  fnAddu : BitVec 6
  fnSub : BitVec 6
  fnSubu : BitVec 6
  fnAnd : BitVec 6
  fnOr : BitVec 6
  fnXor : BitVec 6
  fnNor : BitVec 6
  fnSlt : BitVec 6
  fnSltu : BitVec 6
  opAddi : BitVec 6
  opAddiu : BitVec 6
  opSlti : BitVec 6
  opSltiu : BitVec 6
  opAndi : BitVec 6
  opOri : BitVec 6
  opXori : BitVec 6
  opLui : BitVec 6
  opLw : BitVec 6
  opLb : BitVec 6
  opLh : BitVec 6
  opLbu : BitVec 6
  opLhu : BitVec 6
  opSw : BitVec 6
  opSb : BitVec 6
  opSh : BitVec 6
  /-- `LOAD_RESERVED`: the opcodes classified LOAD besides the word load (rule R7, decision D2). -/
  loadReserved : List (BitVec 6)
  /-- `STORE_RESERVED`: the opcodes classified STORE besides the word store (rule R7, decision D2). -/
  storeReserved : List (BitVec 6)
  deriving DecidableEq, Repr

/-- `BYTE_ORDER` (rules R7, R33). -/
inductive ByteOrder where
  | little
  | big
  deriving DecidableEq, Repr

/-- `MEM_MISALIGNED` (rules R7, R35): what the memory does with an address that is no multiple of 4. -/
inductive MisalignedPolicy where
  | bytewise
  | refuse
  deriving DecidableEq, Repr

/-- One range of mapped byte addresses, both ends included. A list of them is the predicate `MAPPED`
(rules R7, R36), as plain data: any set of 32-bit addresses is such a list. -/
structure Region where
  lo : Nat
  hi : Nat
  deriving DecidableEq, Repr

/-- The parameters a model takes as arguments (rule R7). -/
structure Config where
  codes : Codes
  byteOrder : ByteOrder
  misaligned : MisalignedPolicy
  /-- `MAPPED` (rule R36). -/
  mapped : List Region
  /-- `PC_WIDTH` (rules R7, R13), 0 to 32 bits: an address has no more (rule R6). -/
  pcWidth : Fin 33
  /-- `RESET_REGS` (rule R27). -/
  resetRegs : Vector Word 32
  /-- `RESET_PC` (rule R27). -/
  resetPc : Word
  /-- `RESET_RUN` (rule R27). -/
  resetRun : Bool
  /-- The loaded program image and data: memory at reset (rule R27). -/
  image : Memory
  deriving DecidableEq, Repr

end Sys2Proof
end

