-- ==== Sys2Proof/Machine/Memory.lean ====
section
/-! DEFINITION. Memory as data: the byte an address holds, the canonical form, one byte's write, and the word
accesses built from bytes in one place, so that the byte order is decided once (rules R30 to R33). -/

namespace Sys2Proof

/-- What an address that is not listed reads as, provided it is mapped. DESIGN CHOICE, log entry 5: initial
contents are the model's argument (rule R27). -/
def Memory.blank : Byte := 0

/-- The byte at an address. -/
def Memory.byteAt : Memory → Nat → Byte
  | [], _ => Memory.blank
  | (a, b) :: rest, k => if k < a then Memory.blank else if k = a then b else Memory.byteAt rest k

/-- Replace the byte at an address, keeping the canonical form. -/
def Memory.setByte : Memory → Nat → Byte → Memory
  | [], k, v => if v = Memory.blank then [] else [(k, v)]
  | (a, b) :: rest, k, v =>
    if k < a then if v = Memory.blank then (a, b) :: rest else (k, v) :: (a, b) :: rest
    else if k = a then if v = Memory.blank then rest else (k, v) :: rest
    else (a, b) :: Memory.setByte rest k v

/-- Addresses rise strictly from `lo`, lie below 2^32, and no entry is the blank byte. -/
def Memory.wfFrom : Nat → Memory → Bool
  | _, [] => true
  | lo, (a, b) :: rest => decide (lo ≤ a) && decide (a < 2 ^ 32) && (b != Memory.blank) && Memory.wfFrom (a + 1) rest

/-- The canonical form: equal contents are equal data. -/
def Memory.wf (m : Memory) : Bool := Memory.wfFrom 0 m

/-- The address `k` bytes after `a`, modulo 2^32 (rule R35), as a memory key. -/
def byteAddr (a : Word) (k : Nat) : Nat := (a + BitVec.ofNat 32 k).toNat

/-- The byte of `v` that stands `k` bytes after the word's address (rule R33). -/
def byteOfWord (o : ByteOrder) (v : Word) (k : Nat) : Byte :=
  match o with
  | .little => v.extractLsb' (8 * k) 8
  | .big => v.extractLsb' (8 * (3 - k)) 8

/-- The word whose four bytes, in address order, are given (rule R33). -/
def wordOfBytes (o : ByteOrder) (b0 b1 b2 b3 : Byte) : Word :=
  match o with
  | .little => b3 ++ b2 ++ b1 ++ b0
  | .big => b0 ++ b1 ++ b2 ++ b3

/-- The word at an address (rule R31). -/
def Memory.wordAt (o : ByteOrder) (m : Memory) (a : Word) : Word :=
  wordOfBytes o (m.byteAt (byteAddr a 0)) (m.byteAt (byteAddr a 1)) (m.byteAt (byteAddr a 2)) (m.byteAt (byteAddr a 3))

/-- Replace the four bytes at an address by those of `v` (rule R32). -/
def Memory.setWord (o : ByteOrder) (m : Memory) (a : Word) (v : Word) : Memory :=
  (((m.setByte (byteAddr a 0) (byteOfWord o v 0)).setByte (byteAddr a 1) (byteOfWord o v 1)).setByte
    (byteAddr a 2) (byteOfWord o v 2)).setByte (byteAddr a 3) (byteOfWord o v 3)

/-- `MAPPED` (rule R36): some region holds the address. -/
def Config.isMapped (c : Config) (k : Nat) : Bool :=
  c.mapped.any fun r => decide (r.lo ≤ k) && decide (k ≤ r.hi)

/-- All four bytes of the word at `a` are mapped (rules R35, R36). -/
def Config.mapsWord (c : Config) (a : Word) : Bool :=
  c.isMapped (byteAddr a 0) && c.isMapped (byteAddr a 1) && c.isMapped (byteAddr a 2) && c.isMapped (byteAddr a 3)

/-- The configuration with the four bytes at `a` mapped and a fetch from `a` admitted: unchanged where it
already is so. Used to place a program from outside (log entry 11), never by a step. -/
def Config.admitting (c : Config) (a : Word) : Config :=
  { c with
    misaligned := if a.toNat % 4 = 0 then c.misaligned else .bytewise
    mapped :=
      if c.mapsWord a then c.mapped
      else ([0, 1, 2, 3].map fun k => ⟨byteAddr a k, byteAddr a k⟩) ++ c.mapped }

end Sys2Proof
end

