-- ==== Sys2Proof/Syntax.lean ====
section
/-! DEFINITION. The instructions, one constructor per row of the opcode table: 21 implemented and 6 reserved
(rule R62). Operands stand in the order of the assembler form (rule R65). A field the decoder extracts or
skips and no meaning uses (rule R54) is kept as the last argument, so that no bit of a word is dropped
(log entry 19). Words that are no instruction stand in `Unknown` (Decode.lean). -/

namespace Sys2Proof

/-- The instruction set. -/
inductive Instr where
  /-- `add $rd,$rs,$rt` (rule R90). -/
  | add (rd rs rt : RegIdx) (shamt : BitVec 5)
  /-- `addu $rd,$rs,$rt` (rule R91). -/
  | addu (rd rs rt : RegIdx) (shamt : BitVec 5)
  /-- `sub $rd,$rs,$rt` (rule R92). -/
  | sub (rd rs rt : RegIdx) (shamt : BitVec 5)
  /-- `subu $rd,$rs,$rt` (rule R93). -/
  | subu (rd rs rt : RegIdx) (shamt : BitVec 5)
  /-- `and $rd,$rs,$rt` (rule R94). -/
  | and (rd rs rt : RegIdx) (shamt : BitVec 5)
  /-- `or $rd,$rs,$rt` (rule R95). -/
  | or (rd rs rt : RegIdx) (shamt : BitVec 5)
  /-- `xor $rd,$rs,$rt` (rule R96). -/
  | xor (rd rs rt : RegIdx) (shamt : BitVec 5)
  /-- `nor $rd,$rs,$rt` (rule R97). -/
  | nor (rd rs rt : RegIdx) (shamt : BitVec 5)
  /-- `slt $rd,$rs,$rt` (rule R98). -/
  | slt (rd rs rt : RegIdx) (shamt : BitVec 5)
  /-- `sltu $rd,$rs,$rt` (rule R99). -/
  | sltu (rd rs rt : RegIdx) (shamt : BitVec 5)
  /-- `syscall` (rule R100); the argument is the ignored bits 25:6. -/
  | syscall (ignored : BitVec 20)
  /-- `addi $rt,$rs,imm` (rule R111). -/
  | addi (rt rs : RegIdx) (imm : Imm16)
  /-- `addiu $rt,$rs,imm` (rule R112). -/
  | addiu (rt rs : RegIdx) (imm : Imm16)
  /-- `slti $rt,$rs,imm` (rule R113). -/
  | slti (rt rs : RegIdx) (imm : Imm16)
  /-- `sltiu $rt,$rs,imm` (rule R114). -/
  | sltiu (rt rs : RegIdx) (imm : Imm16)
  /-- `andi $rt,$rs,imm` (rule R115). -/
  | andi (rt rs : RegIdx) (imm : Imm16)
  /-- `ori $rt,$rs,imm` (rule R116). -/
  | ori (rt rs : RegIdx) (imm : Imm16)
  /-- `xori $rt,$rs,imm` (rule R117). -/
  | xori (rt rs : RegIdx) (imm : Imm16)
  /-- `lui $rt,imm` (rule R118); the last argument is the ignored field `rs`. -/
  | lui (rt : RegIdx) (imm : Imm16) (rs : RegIdx)
  /-- `lb $rt,imm($rs)`, reserved (rule R128). -/
  | lb (rt : RegIdx) (imm : Imm16) (rs : RegIdx)
  /-- `lh $rt,imm($rs)`, reserved (rule R129). -/
  | lh (rt : RegIdx) (imm : Imm16) (rs : RegIdx)
  /-- `lw $rt,imm($rs)` (rule R126). -/
  | lw (rt : RegIdx) (imm : Imm16) (rs : RegIdx)
  /-- `lbu $rt,imm($rs)`, reserved (rule R130). -/
  | lbu (rt : RegIdx) (imm : Imm16) (rs : RegIdx)
  /-- `lhu $rt,imm($rs)`, reserved (rule R131). -/
  | lhu (rt : RegIdx) (imm : Imm16) (rs : RegIdx)
  /-- `sb $rt,imm($rs)`, reserved (rule R138). -/
  | sb (rt : RegIdx) (imm : Imm16) (rs : RegIdx)
  /-- `sh $rt,imm($rs)`, reserved (rule R139). -/
  | sh (rt : RegIdx) (imm : Imm16) (rs : RegIdx)
  /-- `sw $rt,imm($rs)` (rule R136). -/
  | sw (rt : RegIdx) (imm : Imm16) (rs : RegIdx)
  deriving DecidableEq, Repr

end Sys2Proof
end

