-- ==== Sys2Proof/WellFormed.lean ====
section
/-! DEFINITION. The checks on a table of selector numbers and on an instruction. Operand fields need none: each
has the type of its field (rules R12, R52). What can be ill-formed is a table that gives two operations one
number, and an instruction whose opcode its table leaves out of the reserved sets (decision D2). -/

namespace Sys2Proof

/-- The low three bits of an opcode: `subop`, bits 28:26 of the word (rule R9). -/
def subopOf (op : BitVec 6) : BitVec 3 := op.setWidth 3

/-- The eleven function codes of the register-op family (rule R60). -/
def Codes.functs (c : Codes) : List (BitVec 6) :=
  [syscallFunct, c.fnAdd, c.fnAddu, c.fnSub, c.fnSubu, c.fnAnd, c.fnOr, c.fnXor, c.fnNor, c.fnSlt, c.fnSltu]

/-- The eight opcodes of the immediate-ALU family (rule R57). -/
def Codes.immOps (c : Codes) : List (BitVec 6) :=
  [c.opAddi, c.opAddiu, c.opSlti, c.opSltiu, c.opAndi, c.opOri, c.opXori, c.opLui]

/-- The opcodes classified LOAD (rules R58, R72). -/
def Codes.loadOps (c : Codes) : List (BitVec 6) := c.opLw :: c.loadReserved

/-- The opcodes classified STORE (rules R59, R72). -/
def Codes.storeOps (c : Codes) : List (BitVec 6) := c.opSw :: c.storeReserved

/-- No two register operations share a function code. -/
def Codes.functsDistinct (c : Codes) : Bool := decide c.functs.Nodup

/-- The low three bits tell the eight immediate operations apart (rule R56). -/
def Codes.immSubopsDistinct (c : Codes) : Bool := decide (c.immOps.map subopOf).Nodup

/-- The word load differs from each reserved load in bits 28:26 (rule R56). -/
def Codes.loadSubopsDistinct (c : Codes) : Bool :=
  c.loadReserved.all fun op => subopOf op != subopOf c.opLw

/-- The word store differs from each reserved store in bits 28:26 (rule R56). -/
def Codes.storeSubopsDistinct (c : Codes) : Bool :=
  c.storeReserved.all fun op => subopOf op != subopOf c.opSw

/-- Every opcode falls in one category (rule R55). -/
def Codes.categoriesDisjoint (c : Codes) : Bool :=
  !c.immOps.contains registerOpcode &&
  c.loadOps.all (fun op => op != registerOpcode && !c.immOps.contains op) &&
  c.storeOps.all (fun op => op != registerOpcode && !c.immOps.contains op && !c.loadOps.contains op)

/-- The reserved mnemonics have numbers of their own (rules R58, R59). -/
def Codes.reservedDistinct (c : Codes) : Bool :=
  decide [c.opLb, c.opLh, c.opLbu, c.opLhu].Nodup && decide [c.opSb, c.opSh].Nodup

/-- A table under which every word has one reading. -/
def Codes.wellFormed (c : Codes) : Bool :=
  c.functsDistinct && c.immSubopsDistinct && c.loadSubopsDistinct && c.storeSubopsDistinct &&
  c.categoriesDisjoint && c.reservedDistinct

/-- The instruction exists under the table `c`: a reserved load or store does so when its opcode is a member
of `LOAD_RESERVED` or `STORE_RESERVED` (rule R62), every other instruction always. -/
def Instr.wellFormed (c : Codes) : Instr → Bool
  | .lb _ _ _ => c.loadReserved.contains c.opLb
  | .lh _ _ _ => c.loadReserved.contains c.opLh
  | .lbu _ _ _ => c.loadReserved.contains c.opLbu
  | .lhu _ _ _ => c.loadReserved.contains c.opLhu
  | .sb _ _ _ => c.storeReserved.contains c.opSb
  | .sh _ _ _ => c.storeReserved.contains c.opSh
  | .add _ _ _ _ | .addu _ _ _ _ | .sub _ _ _ _ | .subu _ _ _ _ | .and _ _ _ _ | .or _ _ _ _
  | .xor _ _ _ _ | .nor _ _ _ _ | .slt _ _ _ _ | .sltu _ _ _ _ | .syscall _ | .addi _ _ _
  | .addiu _ _ _ | .slti _ _ _ | .sltiu _ _ _ | .andi _ _ _ | .ori _ _ _ | .xori _ _ _
  | .lui _ _ _ | .lw _ _ _ | .sw _ _ _ => true

/-- The instruction is as an assembler writes it: the ignored fields are 0 "by convention, ignored by the
decoder" (rules R65, R67). The machine never asks for this. -/
def Instr.conventional : Instr → Bool
  | .add _ _ _ unused | .addu _ _ _ unused | .sub _ _ _ unused | .subu _ _ _ unused | .and _ _ _ unused | .or _ _ _ unused
  | .xor _ _ _ unused | .nor _ _ _ unused | .slt _ _ _ unused | .sltu _ _ _ unused => unused == 0
  | .syscall ignored => ignored == 0
  | .lui _ _ rs => rs == 0
  | .addi _ _ _ | .addiu _ _ _ | .slti _ _ _ | .sltiu _ _ _ | .andi _ _ _ | .ori _ _ _ | .xori _ _ _
  | .lb _ _ _ | .lh _ _ _ | .lw _ _ _ | .lbu _ _ _ | .lhu _ _ _ | .sb _ _ _ | .sh _ _ _
  | .sw _ _ _ => true

end Sys2Proof
end

