-- ==== Sys2Proof/Decode.lean ====
section
/-! DEFINITION. Field extraction (source 4.1), the classifier (4.2), the decoder and, after it, the encoder.
Decoding depends on the word alone (rule R50). The decoder is total: a word that is no instruction is
rejected under the name of its unknown case (rules R62, R146), and the machine gives that case the effect the
spec gives it. Every function takes the table of selector numbers as an argument (rules R7, R56). -/

namespace Sys2Proof

/-- The MIPS I numbers: the default table (rules R57 to R60, decisions D1 and D2). -/
def Codes.mipsI : Codes where
  fnAdd := 32
  fnAddu := 33
  fnSub := 34
  fnSubu := 35
  fnAnd := 36
  fnOr := 37
  fnXor := 38
  fnNor := 39
  fnSlt := 42
  fnSltu := 43
  opAddi := 8
  opAddiu := 9
  opSlti := 10
  opSltiu := 11
  opAndi := 12
  opOri := 13
  opXori := 14
  opLui := 15
  opLb := 32
  opLh := 33
  opLw := 35
  opLbu := 36
  opLhu := 37
  opSb := 40
  opSh := 41
  opSw := 43
  loadReserved := [32, 33, 36, 37]
  storeReserved := [40, 41]

/-! ### Field extraction -/

/-- `bits(w, hi, lo)`, rule R70: the unsigned value of bits hi down to lo. Its domain is
`0 ≤ lo ≤ hi ≤ 31`; outside it the function is not defined (item U8), hence the hypothesis. -/
def bits (w : Word) (hi lo : Nat) (_domain : lo ≤ hi ∧ hi ≤ 31 := by decide) : BitVec (hi - lo + 1) :=
  w.extractLsb' lo (hi - lo + 1)

/-- A 5-bit field as a register index (rule R12). -/
def regOf (b : BitVec 5) : RegIdx := ⟨b.toNat, b.isLt⟩

/-- A register index as a 5-bit field. -/
def regField (r : RegIdx) : BitVec 5 := BitVec.ofNat 5 r.val

/-- `opcode`, bits 31:26 (rule R9). -/
def opcodeOf (w : Word) : BitVec 6 := bits w 31 26

/-- `subop`, bits 28:26 (rule R9). -/
def wordSubop (w : Word) : BitVec 3 := bits w 28 26

/-- `rs`, bits 25:21 (rule R9). -/
def rsOf (w : Word) : RegIdx := regOf (bits w 25 21)

/-- `rt`, bits 20:16 (rule R9). -/
def rtOf (w : Word) : RegIdx := regOf (bits w 20 16)

/-- `rd`, bits 15:11 (rule R9). -/
def rdOf (w : Word) : RegIdx := regOf (bits w 15 11)

/-- `shamt`, bits 10:6 (rule R9). -/
def shamtOf (w : Word) : BitVec 5 := bits w 10 6

/-- `funct`, bits 5:0 (rule R9). -/
def functOf (w : Word) : BitVec 6 := bits w 5 0

/-- `imm`, bits 15:0 (rule R9). -/
def immOf (w : Word) : Imm16 := bits w 15 0

/-- Bits 25:6, which `syscall` ignores (rule R54). -/
def middleOf (w : Word) : BitVec 20 := bits w 25 6

/-! ### The classifier -/

/-- The five categories (rule R55). -/
inductive Category where
  | registerOp
  | immediateAlu
  | load
  | store
  | unknown
  deriving DecidableEq, Repr

/-- `classify(opcode)`, rule R72: a pure function of the opcode field. -/
def classify (c : Codes) (op : BitVec 6) : Category :=
  if op = registerOpcode then .registerOp
  else if c.immOps.contains op then .immediateAlu
  else if c.loadOps.contains op then .load
  else if c.storeOps.contains op then .store
  else .unknown

/-! ### The decoder -/

/-- The words that are no instruction, by the case of the spec that names them (rules R62, R146). The last
three cases have no word under `Codes.mipsI`. The load and store ones live under tables that allow more opcodes
(decision D2); the immediate one lives only where some opcode of its category had no operation, which no table
here gives (rule R119): its effect is modelled all the same. -/
inductive Unknown where
  /-- No category matches the opcode (rule R74). -/
  | opcode
  /-- Opcode 0 with an unlisted function code (rule R101). -/
  | funct
  /-- An immediate-ALU opcode with an unhandled sub-opcode (rule R119). -/
  | immSubop
  /-- A LOAD opcode that is neither the word load nor a row of the table (rule R127): it still reads. -/
  | loadSubop (imm : Imm16) (rs : RegIdx)
  /-- A STORE opcode that is neither the word store nor a row of the table (rule R137). -/
  | storeSubop
  deriving DecidableEq, Repr

/-- What a word reads as. -/
inductive Decoded where
  | instr (i : Instr)
  | unknown (u : Unknown)
  deriving DecidableEq, Repr

/-- Dispatch of the register-op family by function code alone (rule R89). -/
def decodeRegister (c : Codes) (w : Word) : Decoded :=
  if functOf w = syscallFunct then .instr (.syscall (middleOf w))
  else if functOf w = c.fnAdd then .instr (.add (rdOf w) (rsOf w) (rtOf w) (shamtOf w))
  else if functOf w = c.fnAddu then .instr (.addu (rdOf w) (rsOf w) (rtOf w) (shamtOf w))
  else if functOf w = c.fnSub then .instr (.sub (rdOf w) (rsOf w) (rtOf w) (shamtOf w))
  else if functOf w = c.fnSubu then .instr (.subu (rdOf w) (rsOf w) (rtOf w) (shamtOf w))
  else if functOf w = c.fnAnd then .instr (.and (rdOf w) (rsOf w) (rtOf w) (shamtOf w))
  else if functOf w = c.fnOr then .instr (.or (rdOf w) (rsOf w) (rtOf w) (shamtOf w))
  else if functOf w = c.fnXor then .instr (.xor (rdOf w) (rsOf w) (rtOf w) (shamtOf w))
  else if functOf w = c.fnNor then .instr (.nor (rdOf w) (rsOf w) (rtOf w) (shamtOf w))
  else if functOf w = c.fnSlt then .instr (.slt (rdOf w) (rsOf w) (rtOf w) (shamtOf w))
  else if functOf w = c.fnSltu then .instr (.sltu (rdOf w) (rsOf w) (rtOf w) (shamtOf w))
  else .unknown .funct

/-- Dispatch of the immediate-ALU family by `subop` (rule R110). -/
def decodeImmediate (c : Codes) (w : Word) : Decoded :=
  if wordSubop w = subopOf c.opAddi then .instr (.addi (rtOf w) (rsOf w) (immOf w))
  else if wordSubop w = subopOf c.opAddiu then .instr (.addiu (rtOf w) (rsOf w) (immOf w))
  else if wordSubop w = subopOf c.opSlti then .instr (.slti (rtOf w) (rsOf w) (immOf w))
  else if wordSubop w = subopOf c.opSltiu then .instr (.sltiu (rtOf w) (rsOf w) (immOf w))
  else if wordSubop w = subopOf c.opAndi then .instr (.andi (rtOf w) (rsOf w) (immOf w))
  else if wordSubop w = subopOf c.opOri then .instr (.ori (rtOf w) (rsOf w) (immOf w))
  else if wordSubop w = subopOf c.opXori then .instr (.xori (rtOf w) (rsOf w) (immOf w))
  else if wordSubop w = subopOf c.opLui then .instr (.lui (rtOf w) (immOf w) (rsOf w))
  else .unknown .immSubop

/-- Dispatch of the load family: `subop` selects the word load (rule R125); the opcode only names the
reserved loads, which all do the same (rule R127). -/
def decodeLoad (c : Codes) (w : Word) : Decoded :=
  if wordSubop w = subopOf c.opLw then .instr (.lw (rtOf w) (immOf w) (rsOf w))
  else if opcodeOf w = c.opLb then .instr (.lb (rtOf w) (immOf w) (rsOf w))
  else if opcodeOf w = c.opLh then .instr (.lh (rtOf w) (immOf w) (rsOf w))
  else if opcodeOf w = c.opLbu then .instr (.lbu (rtOf w) (immOf w) (rsOf w))
  else if opcodeOf w = c.opLhu then .instr (.lhu (rtOf w) (immOf w) (rsOf w))
  else .unknown (.loadSubop (immOf w) (rsOf w))

/-- Dispatch of the store family (rules R135, R137). -/
def decodeStore (c : Codes) (w : Word) : Decoded :=
  if wordSubop w = subopOf c.opSw then .instr (.sw (rtOf w) (immOf w) (rsOf w))
  else if opcodeOf w = c.opSb then .instr (.sb (rtOf w) (immOf w) (rsOf w))
  else if opcodeOf w = c.opSh then .instr (.sh (rtOf w) (immOf w) (rsOf w))
  else .unknown .storeSubop

/-- Classify, then dispatch (rules R73, R149). -/
def decodeWith (c : Codes) (w : Word) : Decoded :=
  match classify c (opcodeOf w) with
  | .registerOp => decodeRegister c w
  | .immediateAlu => decodeImmediate c w
  | .load => decodeLoad c w
  | .store => decodeStore c w
  | .unknown => .unknown .opcode

/-- The decoder under the default numbers. -/
def decode (w : Word) : Decoded := decodeWith Codes.mipsI w

/-! ### The encoder -/

/-- A word of the R layout from its fields (rules R51, R67). -/
def assembleR (rs rt rd : RegIdx) (shamt : BitVec 5) (funct : BitVec 6) : Word :=
  registerOpcode ++ regField rs ++ regField rt ++ regField rd ++ shamt ++ funct

/-- A `syscall` word from the bits it ignores (rules R54, R100). -/
def assembleSyscall (ignored : BitVec 20) : Word := registerOpcode ++ ignored ++ syscallFunct

/-- A word of the I layout from its fields (rules R52, R67). -/
def assembleI (opcode : BitVec 6) (rs rt : RegIdx) (imm : Imm16) : Word :=
  opcode ++ regField rs ++ regField rt ++ imm

/-- The word of an instruction. -/
def encodeWith (c : Codes) : Instr → Word
  | .add rd rs rt sh => assembleR rs rt rd sh c.fnAdd
  | .addu rd rs rt sh => assembleR rs rt rd sh c.fnAddu
  | .sub rd rs rt sh => assembleR rs rt rd sh c.fnSub
  | .subu rd rs rt sh => assembleR rs rt rd sh c.fnSubu
  | .and rd rs rt sh => assembleR rs rt rd sh c.fnAnd
  | .or rd rs rt sh => assembleR rs rt rd sh c.fnOr
  | .xor rd rs rt sh => assembleR rs rt rd sh c.fnXor
  | .nor rd rs rt sh => assembleR rs rt rd sh c.fnNor
  | .slt rd rs rt sh => assembleR rs rt rd sh c.fnSlt
  | .sltu rd rs rt sh => assembleR rs rt rd sh c.fnSltu
  | .syscall ignored => assembleSyscall ignored
  | .addi rt rs imm => assembleI c.opAddi rs rt imm
  | .addiu rt rs imm => assembleI c.opAddiu rs rt imm
  | .slti rt rs imm => assembleI c.opSlti rs rt imm
  | .sltiu rt rs imm => assembleI c.opSltiu rs rt imm
  | .andi rt rs imm => assembleI c.opAndi rs rt imm
  | .ori rt rs imm => assembleI c.opOri rs rt imm
  | .xori rt rs imm => assembleI c.opXori rs rt imm
  | .lui rt imm rs => assembleI c.opLui rs rt imm
  | .lb rt imm rs => assembleI c.opLb rs rt imm
  | .lh rt imm rs => assembleI c.opLh rs rt imm
  | .lw rt imm rs => assembleI c.opLw rs rt imm
  | .lbu rt imm rs => assembleI c.opLbu rs rt imm
  | .lhu rt imm rs => assembleI c.opLhu rs rt imm
  | .sb rt imm rs => assembleI c.opSb rs rt imm
  | .sh rt imm rs => assembleI c.opSh rs rt imm
  | .sw rt imm rs => assembleI c.opSw rs rt imm

/-- The encoder under the default numbers. -/
def encode (i : Instr) : Word := encodeWith Codes.mipsI i

/-! ### The opcode table's numbering -/

/-- The one instruction word whose low `nbits` bits are `w` and whose other bits are 0. -/
def tableWord (nbits w : Nat) : Word := BitVec.ofNat 32 (w % 2 ^ nbits)

/-- The instruction the decoder reads from an opcode-table word, none where it is no instruction. -/
def decodeTableWord (nbits w : Nat) : Option Instr :=
  match decode (tableWord nbits w) with
  | .instr i => some i
  | .unknown _ => none

end Sys2Proof
end

