-- ==== Sys2Proof/Machine/Platform.lean ====
section
/-! DEFINITION. The default value of every parameter of rule R7. Where the spec has a default it is that one;
where it has none ("the model's argument") the value is the model's own and a log entry names it. -/

namespace Sys2Proof

/-- `RESET_REGS`: every register 0. DESIGN CHOICE, log entry 1: the spec gives no value (rule R27). -/
def defaultResetRegs : Vector Word 32 := Vector.replicate 32 0

/-- `RESET_PC`: 0. DESIGN CHOICE, log entry 2: the spec gives no value (rule R27). -/
def defaultResetPc : Word := 0

/-- `MAPPED`: the whole 32-bit address space. DESIGN CHOICE, log entry 4: the spec gives no region. -/
def defaultMapped : List Region := [⟨0, 0xFFFFFFFF⟩]

/-- The default configuration: little-endian (decision D5), bytewise misaligned accesses (D6), a 32-bit
program counter (D4), the MIPS I numbers (D1, D2), running at reset (D9), nothing loaded (log entry 11). -/
def Config.standard : Config where
  codes := Codes.mipsI
  byteOrder := .little
  misaligned := .bytewise
  mapped := defaultMapped
  pcWidth := 32
  resetRegs := defaultResetRegs
  resetPc := defaultResetPc
  resetRun := true
  image := []

end Sys2Proof
end

