-- ==== Sys2Proof/Machine/ProgramCounter.lean ====
section
/-! DEFINITION. The program counter's width and advance (rules R7, R13 to R15). -/

namespace Sys2Proof.Machine

/-- The bytes of an instruction word: the program counter's only advance (rules R6, R14). -/
def instrBytes : Word := 4

end Sys2Proof.Machine

namespace Sys2Proof

/-- What a program counter of `PC_WIDTH` bits holds of an address: its low bits, zero-extended to the address the
fetch uses. At the spec's width, 32, it is the address itself (decision D4); at a narrower one this is the model's
reading, DESIGN CHOICE, log entry 13. -/
def Config.fitPc (c : Config) (a : Word) : Word := BitVec.ofNat 32 (a.toNat % 2 ^ c.pcWidth.val)

/-- `C.PC + 4` (rule R14), modulo 2^PC_WIDTH. -/
def Config.nextPc (c : Config) (p : Word) : Word := c.fitPc (p + Machine.instrBytes)

end Sys2Proof
end

