-- ==== Sys2Proof/Machine/State.lean ====
section
/-! DEFINITION. The state of the machine, why a step can stop, and reset. State holds all the spec gives the
machine: the 32 registers and the program counter, twice (CURRENT and NEXT, rule R19), the run flag, the
memory; and beside them the cycle's diagnostic output and the configuration, which the spec says are no
architectural state (log entries 7 and 10). -/

namespace Sys2Proof.Machine

/-- The three kinds of memory access (rule R47). -/
inductive Access where
  | fetch
  | load
  | store
  deriving DecidableEq, Repr

/-- Why the machine is stuck. Rules R26 and R36 give such a cycle no step: nothing changes. Safe: the machine
stops where the hardware does something the source does not define. -/
inductive Fault where
  /-- A fetch, a load-category read or a word store touches a byte that is not mapped (rule R36, item U1).
  Raised by `State.checkAccess`, for `step` and for the meanings of `lw`, `lb`, `lh`, `lbu`, `lhu`, `sw`. Safe. -/
  | unmapped (kind : Access) (addr : Word)
  /-- The same accesses at an address that is no multiple of 4, when `MEM_MISALIGNED` is `refuse` (rule R35,
  item U3). Raised by `State.checkAccess`. Safe. -/
  | misaligned (kind : Access) (addr : Word)
  deriving DecidableEq, Repr

/-- Why an instruction would have no meaning. -/
inductive Refusal where
  /-- The instruction has no meaning yet. Raised by an arm of `exec` only; no arm raises it. Safe. -/
  | notModelled (mnemonic : String)
  deriving DecidableEq, Repr

/-- The diagnostic outcome of a cycle (rule R146). -/
inductive Diag where
  | none
  | unknownOpcode
  | unknownFunct
  | unknownImmSubop
  | unknownLoadSubop
  | unknownStoreSubop
  deriving DecidableEq, Repr

/-- One copy of the architectural state: 32 registers (rule R10) and the program counter (rule R13). -/
structure Arch where
  regs : Vector Word 32
  pc : Word
  deriving DecidableEq, Repr

/-- The whole machine. -/
structure State where
  /-- CURRENT: what an instruction reads (rules R19, R20). -/
  current : Arch
  /-- NEXT: what an instruction writes (rules R19, R20). Between cycles it equals CURRENT (log entry 6), and
  every cycle initialises it before use. -/
  next : Arch
  /-- `RUN`, outside the CURRENT/NEXT pair (rule R17). -/
  run : Bool
  /-- The one memory, for fetch and data (rules R28, R30). -/
  mem : Memory
  /-- The diagnostic outcome of the cycle that led here; an output, read by nothing (rules R146, R148). -/
  diag : Diag
  /-- The parameters (rule R7); no step changes them. -/
  cfg : Config
  deriving DecidableEq, Repr

/-- The state after reset of the machine with configuration `c` (rules R27, R160). NEXT has no reset value and
takes CURRENT's (log entry 6). The diagnostic has none either, being an output of a cycle and no cycle having run
(rules R146, R148): the held field is none, DESIGN CHOICE, log entry 7. -/
def State.resetOf (c : Config) : State :=
  let arch : Arch := { regs := c.resetRegs, pc := c.fitPc c.resetPc }
  { current := arch, next := arch, run := c.resetRun, mem := c.image, diag := .none, cfg := c }

/-- The machine right after reset, under the default configuration. -/
def State.reset : State := State.resetOf Config.standard

end Sys2Proof.Machine
end

