-- ==== Sys2Proof/Machine/Ops.lean ====
section
/-! DEFINITION. The named operations every meaning is written in: reading CURRENT, writing NEXT, the two memory
primitives, the report of an unknown case, the run flag, and the cycle that initialises NEXT before an
instruction and commits it after (rules R19 to R22, R77). This hardware takes no exception and returns from
none (rules R145, R151); `State.report` is what stands in that place. -/

namespace Sys2Proof.Machine

/-- `C.R[i]` (rule R20). Index 0 is a register like any other (rule R11). -/
def State.reg (s : State) (i : RegIdx) : Word := s.current.regs[i]

/-- `N.R[i] <- v` (rule R20). Index 0 is written like any other (rule R11). -/
def State.setNext (s : State) (i : RegIdx) (v : Word) : State :=
  { s with next := { s.next with regs := s.next.regs.set i v } }

/-- The byte of memory at an address. -/
def State.byteAt (s : State) (k : Nat) : Byte := s.mem.byteAt k

/-- `report <Kind>` (rules R8, R146): sets the cycle's diagnostic outcome and changes nothing else. -/
def State.report (s : State) (d : Diag) : State := { s with diag := d }

/-- `RUN <- 0` (rule R17). -/
def State.clearRun (s : State) : State := { s with run := false }

/-- Step 1 of rule R77: NEXT becomes CURRENT with the program counter 4 further on, the diagnostic none. -/
def State.beginCycle (s : State) : State :=
  { s with next := { regs := s.current.regs, pc := s.cfg.nextPc s.current.pc }, diag := .none }

/-- The commit of rule R22: NEXT becomes CURRENT. -/
def State.commit (s : State) : State := { s with current := s.next }

/-- What stops an access to the word at `a`: a misaligned address under `refuse` (rule R35), or a byte that is
not mapped (rule R36). Which of the two is named when both hold is log entry 9. -/
def State.checkAccess (s : State) (kind : Access) (a : Word) : Except Fault Unit :=
  if s.cfg.misaligned = .refuse ∧ a.toNat % 4 ≠ 0 then .error (.misaligned kind a)
  else if s.cfg.mapsWord a then .ok ()
  else .error (.unmapped kind a)

/-- `MemRead(a, 4)` (rules R31, R38): the word at `a`; nothing changes. -/
def State.memRead (s : State) (kind : Access) (a : Word) : Except Fault Word :=
  match s.checkAccess kind a with
  | .ok _ => .ok (s.mem.wordAt s.cfg.byteOrder a)
  | .error f => .error f

/-- `MemWrite(a, 4, v)` (rule R32), made during the cycle and not held in NEXT (rule R20). -/
def State.memWrite (s : State) (a v : Word) : Except Fault State :=
  match s.checkAccess .store a with
  | .ok _ => .ok { s with mem := s.mem.setWord s.cfg.byteOrder a v }
  | .error f => .error f

/-- `EA` (rule R125): formed from CURRENT's base register. -/
def State.address (s : State) (rs : RegIdx) (imm : Imm16) : Word := effectiveAddress (s.reg rs) imm

/-- One cycle around a handler (rule R77): initialise NEXT, run the handler, commit. A cycle whose access is not
admitted has no step (rules R26, R36). -/
def runCycle (s : State) (handler : State → Except Fault State) : Host.Outcome State Fault Refusal :=
  match handler s.beginCycle with
  | .ok n => .next n.commit
  | .error f => .fault f

/-- The handler of every instruction that computes with the ALU into a register: `N.R[d] <- alu(op, a, b)`. -/
def aluInto (d : RegIdx) (op : AluOp) (a b : State → Word) (s : State) : Except Fault State :=
  .ok (s.setNext d (alu op (a s) (b s)))

/-- The register-register form: `N.R[rd] <- alu(op, C.R[rs], C.R[rt])` (rule R89). -/
def registerAlu (op : AluOp) (rd rs rt : RegIdx) : State → Except Fault State :=
  aluInto rd op (fun s => s.reg rs) (fun s => s.reg rt)

/-- The sign-extending immediate form: `N.R[rt] <- alu(op, C.R[rs], sext32(imm))` (rule R110). -/
def signedImmediateAlu (op : AluOp) (rt rs : RegIdx) (imm : Imm16) : State → Except Fault State :=
  aluInto rt op (fun s => s.reg rs) (fun _ => sext32 imm)

/-- The zero-extending immediate form: `N.R[rt] <- alu(op, C.R[rs], zext32(imm))` (rule R110). -/
def zeroImmediateAlu (op : AluOp) (rt rs : RegIdx) (imm : Imm16) : State → Except Fault State :=
  aluInto rt op (fun s => s.reg rs) (fun _ => zext32 imm)

/-- The word load's handler (rules R125, R126). -/
def loadWord (rt : RegIdx) (imm : Imm16) (rs : RegIdx) (s : State) : Except Fault State :=
  match s.memRead .load (s.address rs imm) with
  | .ok w => .ok (s.setNext rt w)
  | .error f => .error f

/-- The reserved loads' handler (rule R127): the read is made, the word discarded, the case reported. -/
def discardLoad (imm : Imm16) (rs : RegIdx) (s : State) : Except Fault State :=
  match s.memRead .load (s.address rs imm) with
  | .ok _ => .ok (s.report .unknownLoadSubop)
  | .error f => .error f

/-- The word store's handler (rules R135, R136). -/
def storeWord (rt : RegIdx) (imm : Imm16) (rs : RegIdx) (s : State) : Except Fault State :=
  s.memWrite (s.address rs imm) (s.reg rt)

/-- A handler that only reports (rules R74, R101, R119, R137). -/
def reportOnly (d : Diag) (s : State) : Except Fault State := .ok (s.report d)

/-- The register `syscall` reads, and the value that asks for exit (rules R6, R100). -/
def exitRegister : RegIdx := 2

/-- See `exitRegister`. All 32 bits are compared. -/
def exitRequest : Word := 10

/-- The `syscall` handler (rule R100). -/
def exitIfAsked (s : State) : Except Fault State :=
  if s.reg exitRegister = exitRequest then .ok s.clearRun else .ok s

/-- The fetch (rule R75): an ordinary memory read at `C.PC`. -/
def State.fetch (s : State) : Except Fault Word := s.memRead .fetch s.current.pc

/-- The machine running, with the word `w` in memory at its program counter, in the byte order the fetch uses
(rule R162). -/
def State.placeWord (s : State) (w : Word) : State :=
  { s with
    run := true
    cfg := s.cfg.admitting s.current.pc
    mem := s.mem.setWord s.cfg.byteOrder s.current.pc w }

end Sys2Proof.Machine
end

