-- ==== Sys2Proof/Machine/ImmediateAlu.lean ====
section
/-! DEFINITION. The immediate ALU family (rules R110 to R118). The destination is `rt`. -/

namespace Sys2Proof.Machine

/-- `addi` (rule R111): overflow wraps. -/
def execAddi (rt rs : RegIdx) (imm : Imm16) (s : State) : Host.Outcome State Fault Refusal :=
  runCycle s (signedImmediateAlu .add rt rs imm)

/-- `addiu` (rule R112): the immediate is sign-extended in spite of the name. -/
def execAddiu (rt rs : RegIdx) (imm : Imm16) (s : State) : Host.Outcome State Fault Refusal :=
  runCycle s (signedImmediateAlu .add rt rs imm)

/-- `slti` (rule R113): the register is the left operand. -/
def execSlti (rt rs : RegIdx) (imm : Imm16) (s : State) : Host.Outcome State Fault Refusal :=
  runCycle s (signedImmediateAlu .slt rt rs imm)

/-- `sltiu` (rule R114): the sign-extended pattern read as unsigned. -/
def execSltiu (rt rs : RegIdx) (imm : Imm16) (s : State) : Host.Outcome State Fault Refusal :=
  runCycle s (signedImmediateAlu .sltu rt rs imm)

/-- `andi` (rule R115). -/
def execAndi (rt rs : RegIdx) (imm : Imm16) (s : State) : Host.Outcome State Fault Refusal :=
  runCycle s (zeroImmediateAlu .and rt rs imm)

/-- `ori` (rule R116). -/
def execOri (rt rs : RegIdx) (imm : Imm16) (s : State) : Host.Outcome State Fault Refusal :=
  runCycle s (zeroImmediateAlu .or rt rs imm)

/-- `xori` (rule R117). -/
def execXori (rt rs : RegIdx) (imm : Imm16) (s : State) : Host.Outcome State Fault Refusal :=
  runCycle s (zeroImmediateAlu .xor rt rs imm)

/-- `lui` (rule R118): reads no register; the ALU ignores its first operand (rule R79). -/
def execLui (rt : RegIdx) (imm : Imm16) (s : State) : Host.Outcome State Fault Refusal :=
  runCycle s (aluInto rt .lui (fun _ => 0) (fun _ => zext32 imm))

end Sys2Proof.Machine
end

