-- ==== Sys2Proof/Machine/Load.lean ====
section
/-! DEFINITION. The load family (rules R125 to R131). The reserved loads load nothing: they make the 32-bit read,
discard the word and report, so their address must be one the memory admits (rule R127). -/

namespace Sys2Proof.Machine

/-- `lw` (rule R126). -/
def execLw (rt : RegIdx) (imm : Imm16) (rs : RegIdx) (s : State) : Host.Outcome State Fault Refusal :=
  runCycle s (loadWord rt imm rs)

/-- `lb`, reserved (rule R128). -/
def execLb (imm : Imm16) (rs : RegIdx) (s : State) : Host.Outcome State Fault Refusal :=
  runCycle s (discardLoad imm rs)

/-- `lh`, reserved (rule R129). -/
def execLh (imm : Imm16) (rs : RegIdx) (s : State) : Host.Outcome State Fault Refusal :=
  runCycle s (discardLoad imm rs)

/-- `lbu`, reserved (rule R130). -/
def execLbu (imm : Imm16) (rs : RegIdx) (s : State) : Host.Outcome State Fault Refusal :=
  runCycle s (discardLoad imm rs)

/-- `lhu`, reserved (rule R131). -/
def execLhu (imm : Imm16) (rs : RegIdx) (s : State) : Host.Outcome State Fault Refusal :=
  runCycle s (discardLoad imm rs)

end Sys2Proof.Machine
end

