-- ==== Sys2Proof/Machine/RegisterAlu.lean ====
section
/-! DEFINITION. The register-register ALU family (rules R89 to R99). Signed overflow wraps and does not trap
(rule R80). `shamt` is ignored (rule R54) and stands in no meaning. -/

namespace Sys2Proof.Machine

/-- `add` (rule R90). -/
def execAdd (rd rs rt : RegIdx) (s : State) : Host.Outcome State Fault Refusal :=
  runCycle s (registerAlu .add rd rs rt)

/-- `addu` (rule R91): the same result as `add` for all operands. -/
def execAddu (rd rs rt : RegIdx) (s : State) : Host.Outcome State Fault Refusal :=
  runCycle s (registerAlu .add rd rs rt)

/-- `sub` (rule R92): source 1 minus source 2. -/
def execSub (rd rs rt : RegIdx) (s : State) : Host.Outcome State Fault Refusal :=
  runCycle s (registerAlu .sub rd rs rt)

/-- `subu` (rule R93). -/
def execSubu (rd rs rt : RegIdx) (s : State) : Host.Outcome State Fault Refusal :=
  runCycle s (registerAlu .sub rd rs rt)

/-- `and` (rule R94). -/
def execAnd (rd rs rt : RegIdx) (s : State) : Host.Outcome State Fault Refusal :=
  runCycle s (registerAlu .and rd rs rt)

/-- `or` (rule R95). -/
def execOr (rd rs rt : RegIdx) (s : State) : Host.Outcome State Fault Refusal :=
  runCycle s (registerAlu .or rd rs rt)

/-- `xor` (rule R96). -/
def execXor (rd rs rt : RegIdx) (s : State) : Host.Outcome State Fault Refusal :=
  runCycle s (registerAlu .xor rd rs rt)

/-- `nor` (rule R97). -/
def execNor (rd rs rt : RegIdx) (s : State) : Host.Outcome State Fault Refusal :=
  runCycle s (registerAlu .nor rd rs rt)

/-- `slt` (rule R98). -/
def execSlt (rd rs rt : RegIdx) (s : State) : Host.Outcome State Fault Refusal :=
  runCycle s (registerAlu .slt rd rs rt)

/-- `sltu` (rule R99). -/
def execSltu (rd rs rt : RegIdx) (s : State) : Host.Outcome State Fault Refusal :=
  runCycle s (registerAlu .sltu rd rs rt)

end Sys2Proof.Machine
end

