-- ==== Sys2Proof/Machine/Store.lean ====
section
/-! DEFINITION. The store family (rules R135 to R139). The reserved stores make no memory access of any kind. -/

namespace Sys2Proof.Machine

/-- `sw` (rule R136). -/
def execSw (rt : RegIdx) (imm : Imm16) (rs : RegIdx) (s : State) : Host.Outcome State Fault Refusal :=
  runCycle s (storeWord rt imm rs)

/-- `sb`, reserved (rule R138). -/
def execSb (s : State) : Host.Outcome State Fault Refusal := runCycle s (reportOnly .unknownStoreSubop)

/-- `sh`, reserved (rule R139). -/
def execSh (s : State) : Host.Outcome State Fault Refusal := runCycle s (reportOnly .unknownStoreSubop)

end Sys2Proof.Machine
end

