-- ==== Sys2Proof/Machine/System.lean ====
section
/-! DEFINITION. The one system instruction (rules R100, R153): it traps to nothing and saves nothing. -/

namespace Sys2Proof.Machine

/-- `syscall` (rule R100): clears the run flag when register 2 holds 10, else does nothing. -/
def execSyscall (s : State) : Host.Outcome State Fault Refusal := runCycle s exitIfAsked

end Sys2Proof.Machine
end

