-- ==== Sys2Proof/Machine/Dispatch.lean ====
section
/-! DEFINITION. One arm per instruction. -/

namespace Sys2Proof.Machine

def exec (i : Instr) (s : State) : Host.Outcome State Fault Refusal :=
  match i with
  | .add rd rs rt _ => Sys2Proof.Machine.execAdd rd rs rt s
  | .addu rd rs rt _ => Sys2Proof.Machine.execAddu rd rs rt s
  | .sub rd rs rt _ => Sys2Proof.Machine.execSub rd rs rt s
  | .subu rd rs rt _ => Sys2Proof.Machine.execSubu rd rs rt s
  | .and rd rs rt _ => Sys2Proof.Machine.execAnd rd rs rt s
  | .or rd rs rt _ => Sys2Proof.Machine.execOr rd rs rt s
  | .xor rd rs rt _ => Sys2Proof.Machine.execXor rd rs rt s
  | .nor rd rs rt _ => Sys2Proof.Machine.execNor rd rs rt s
  | .slt rd rs rt _ => Sys2Proof.Machine.execSlt rd rs rt s
  | .sltu rd rs rt _ => Sys2Proof.Machine.execSltu rd rs rt s
  | .syscall _ => Sys2Proof.Machine.execSyscall s
  | .addi rt rs imm => Sys2Proof.Machine.execAddi rt rs imm s
  | .addiu rt rs imm => Sys2Proof.Machine.execAddiu rt rs imm s
  | .slti rt rs imm => Sys2Proof.Machine.execSlti rt rs imm s
  | .sltiu rt rs imm => Sys2Proof.Machine.execSltiu rt rs imm s
  | .andi rt rs imm => Sys2Proof.Machine.execAndi rt rs imm s
  | .ori rt rs imm => Sys2Proof.Machine.execOri rt rs imm s
  | .xori rt rs imm => Sys2Proof.Machine.execXori rt rs imm s
  | .lui rt imm _ => Sys2Proof.Machine.execLui rt imm s
  | .lb _ imm rs => Sys2Proof.Machine.execLb imm rs s
  | .lh _ imm rs => Sys2Proof.Machine.execLh imm rs s
  | .lw rt imm rs => Sys2Proof.Machine.execLw rt imm rs s
  | .lbu _ imm rs => Sys2Proof.Machine.execLbu imm rs s
  | .lhu _ imm rs => Sys2Proof.Machine.execLhu imm rs s
  | .sb _ _ _ => Sys2Proof.Machine.execSb s
  | .sh _ _ _ => Sys2Proof.Machine.execSh s
  | .sw rt imm rs => Sys2Proof.Machine.execSw rt imm rs s

end Sys2Proof.Machine
end

