-- ==== Sys2Proof/Machine/Unknown.lean ====
section
/-! DEFINITION. The words that are no instruction (rules R74, R101, R119, R127, R137, R147): they are not refused.
The cycle completes with the program counter advanced and nothing else changed, and reports its case. -/

namespace Sys2Proof.Machine

/-- An unknown opcode (rule R74). -/
def execUnknownOpcode (s : State) : Host.Outcome State Fault Refusal := runCycle s (reportOnly .unknownOpcode)

/-- An unknown function code (rule R101). -/
def execUnknownFunct (s : State) : Host.Outcome State Fault Refusal := runCycle s (reportOnly .unknownFunct)

/-- An unknown immediate sub-opcode (rule R119). -/
def execUnknownImmSubop (s : State) : Host.Outcome State Fault Refusal := runCycle s (reportOnly .unknownImmSubop)

/-- A LOAD opcode that is no row of the table (rule R127): the read is made all the same. -/
def execUnknownLoadSubop (imm : Imm16) (rs : RegIdx) (s : State) : Host.Outcome State Fault Refusal :=
  runCycle s (discardLoad imm rs)

/-- A STORE opcode that is no row of the table (rule R137). -/
def execUnknownStoreSubop (s : State) : Host.Outcome State Fault Refusal :=
  runCycle s (reportOnly .unknownStoreSubop)

/-- The meaning of a word that is no instruction (rules R62, R147). -/
def execUnknown (u : Unknown) (s : State) : Host.Outcome State Fault Refusal :=
  match u with
  | .opcode => execUnknownOpcode s
  | .funct => execUnknownFunct s
  | .immSubop => execUnknownImmSubop s
  | .loadSubop imm rs => execUnknownLoadSubop imm rs s
  | .storeSubop => execUnknownStoreSubop s

end Sys2Proof.Machine
end

