-- ==== Sys2Proof/Machine/Step.lean ====
section
/-! DEFINITION. The cycle and the step (rules R75 to R78, R163), and the placing of one instruction word for the
host. Everything a test could show wrong stands in the files this one calls. -/

namespace Sys2Proof.Machine

/-- `Execute(C, instr)` (rules R76, R77): any word, however obtained; the run flag is not read (rule R78). -/
def execute (w : Word) (s : State) : Host.Outcome State Fault Refusal :=
  match decodeWith s.cfg.codes w with
  | .instr i => exec i s
  | .unknown u => execUnknown u s

/-- `Cycle(C)` = `Execute(C, MemRead(C.PC, 4))`, with the commit (rules R75, R76, R22). -/
def cycle (s : State) : Host.Outcome State Fault Refusal :=
  match s.fetch with
  | .ok w => execute w s
  | .error f => .fault f

/-- One step: while the run flag is 1 a cycle is performed; when it is 0 the state is frozen (rules R26, R163,
R164; log entry 8). -/
def step (s : State) : Host.Outcome State Fault Refusal :=
  match s.run with
  | true => cycle s
  | false => .next s

/-- `s` with one instruction word placed where the next step fetches, and the machine running. -/
def State.withFetchWord (s : State) (nbits w : Nat) : State := s.placeWord (tableWord nbits w)

end Sys2Proof.Machine
end

