-- ==== Sys2Proof/Machine/Datapath.lean ====
section
/-! DEFINITION. The block as hardware (rules R25, R26, R81): the decoder's control outputs, the combinational
datapath between the state registers and the memory, the ports, and the clock edge with its reset input. It is
written from the word's fields and the control table alone, beside the meanings and not through them, so that
the two can be compared. -/

namespace Sys2Proof.Machine

/-- Where ALU operand b comes from (rule R81). -/
inductive SourceB where
  | unused
  | register
  | signedImm
  | zeroImm
  deriving DecidableEq, Repr

/-- Which field names the destination register (rule R81). -/
inductive Destination where
  | none
  | rd
  | rt
  deriving DecidableEq, Repr

/-- One row of the control table (rule R81). -/
structure Control where
  aluOp : Option AluOp
  sourceB : SourceB
  dest : Destination
  /-- The word read from memory is written back, not the ALU's. -/
  fromMemory : Bool
  read : Bool
  write : Bool
  /-- `RUN <- 0` if register 2 holds 10. -/
  exit : Bool
  diag : Diag
  deriving DecidableEq, Repr

/-- The row of a word that does nothing but report. -/
def inertControl (d : Diag) : Control where
  aluOp := none
  sourceB := .unused
  dest := .none
  fromMemory := false
  read := false
  write := false
  exit := false
  diag := d

/-- The ALU operation of each function code (rules R60, R81). -/
def registerAluRows (c : Codes) : List (BitVec 6 × AluOp) :=
  [(c.fnAdd, .add), (c.fnAddu, .add), (c.fnSub, .sub), (c.fnSubu, .sub), (c.fnAnd, .and), (c.fnOr, .or),
   (c.fnXor, .xor), (c.fnNor, .nor), (c.fnSlt, .slt), (c.fnSltu, .sltu)]

/-- The ALU operation and the extension of each immediate sub-opcode (rules R57, R81). -/
def immediateAluRows (c : Codes) : List (BitVec 3 × AluOp × SourceB) :=
  [(subopOf c.opAddi, .add, .signedImm), (subopOf c.opAddiu, .add, .signedImm),
   (subopOf c.opSlti, .slt, .signedImm), (subopOf c.opSltiu, .sltu, .signedImm),
   (subopOf c.opAndi, .and, .zeroImm), (subopOf c.opOri, .or, .zeroImm),
   (subopOf c.opXori, .xor, .zeroImm), (subopOf c.opLui, .lui, .zeroImm)]

/-- Control of the register-op family. -/
def registerControl (c : Codes) (funct : BitVec 6) : Control :=
  if funct = syscallFunct then { inertControl .none with exit := true }
  else match (registerAluRows c).lookup funct with
    | some op => { inertControl .none with aluOp := some op, sourceB := .register, dest := .rd }
    | none => inertControl .unknownFunct

/-- Control of the immediate-ALU family. -/
def immediateControl (c : Codes) (subop : BitVec 3) : Control :=
  match (immediateAluRows c).lookup subop with
  | some (op, b) => { inertControl .none with aluOp := some op, sourceB := b, dest := .rt }
  | none => inertControl .unknownImmSubop

/-- Control of the load family: the read is made for every member (rule R125). -/
def loadControl (c : Codes) (subop : BitVec 3) : Control :=
  let address : Control :=
    { inertControl .none with aluOp := some .add, sourceB := .signedImm, read := true }
  if subop = subopOf c.opLw then { address with dest := .rt, fromMemory := true }
  else { address with diag := .unknownLoadSubop }

/-- Control of the store family: only the word store touches memory (rule R135). -/
def storeControl (c : Codes) (subop : BitVec 3) : Control :=
  if subop = subopOf c.opSw then
    { inertControl .none with aluOp := some .add, sourceB := .signedImm, write := true }
  else inertControl .unknownStoreSubop

/-- The decoder's outputs for a word (rule R81). -/
def control (c : Codes) (w : Word) : Control :=
  match classify c (opcodeOf w) with
  | .registerOp => registerControl c (functOf w)
  | .immediateAlu => immediateControl c (wordSubop w)
  | .load => loadControl c (wordSubop w)
  | .store => storeControl c (wordSubop w)
  | .unknown => inertControl .unknownOpcode

/-- The first register read port: `rs`, forced to 2 for `syscall` (rule R25). -/
def Control.readA (k : Control) (w : Word) : RegIdx := if k.exit then exitRegister else rsOf w

/-- ALU operand b. -/
def Control.operandB (k : Control) (s : State) (w : Word) : Word :=
  match k.sourceB with
  | .unused => 0
  | .register => s.reg (rtOf w)
  | .signedImm => sext32 (immOf w)
  | .zeroImm => zext32 (immOf w)

/-- The ALU's output; 0 where the control table says the ALU is not used, and then nothing takes it. -/
def Control.result (k : Control) (s : State) (w : Word) : Word :=
  match k.aluOp with
  | some op => alu op (s.reg (k.readA w)) (k.operandB s w)
  | none => 0

/-- The register the write port writes, if any. -/
def Control.destination (k : Control) (w : Word) : Option RegIdx :=
  match k.dest with
  | .none => none
  | .rd => some (rdOf w)
  | .rt => some (rtOf w)

/-- The memory read port for data. -/
def Control.readData (k : Control) (s : State) (w : Word) : Except Fault (Option Word) :=
  if k.read then
    match s.memRead .load (k.result s w) with
    | .ok v => .ok (some v)
    | .error f => .error f
  else .ok none

/-- The memory write port for data. -/
def Control.writeData (k : Control) (s : State) (w : Word) : Except Fault Memory :=
  if k.write then
    match s.memWrite (k.result s w) (s.reg (rtOf w)) with
    | .ok t => .ok t.mem
    | .error f => .error f
  else .ok s.mem

/-- The value at the register file's write port. -/
def Control.writeBack (k : Control) (s : State) (w : Word) (data : Option Word) : Word :=
  match k.fromMemory, data with
  | true, some v => v
  | _, _ => k.result s w

/-- The values at the inputs of the state registers when the fetched word is `w`, NEXT in the hardware reading
(rule R25), or the memory's refusal. -/
def datapath (s : State) (w : Word) : Except Fault State :=
  let k := control s.cfg.codes w
  match k.readData s w, k.writeData s w with
  | .ok data, .ok mem =>
    let n : Arch :=
      { regs := match k.destination w with
          | some d => s.current.regs.set d (k.writeBack s w data)
          | none => s.current.regs
        pc := s.cfg.nextPc s.current.pc }
    .ok { s with
      current := n
      next := n
      run := s.run && !(k.exit && s.reg (k.readA w) == exitRequest)
      mem := mem
      diag := k.diag }
  | .error f, _ => .error f
  | _, .error f => .error f

/-- One rising edge of `clk` (rule R26): reset when `rst` is 1; else, running and with no memory fault, the
state takes NEXT; not running, it is frozen; on a memory fault the machine is stuck. -/
def clockEdge (rst : Bool) (s : State) : Host.Outcome State Fault Refusal :=
  if rst then .next (State.resetOf s.cfg)
  else if s.run then
    match s.fetch with
    | .error f => .fault f
    | .ok w =>
      match datapath s w with
      | .ok t => .next t
      | .error f => .fault f
  else .next s

/-- The number of a diagnostic (rule R146). -/
def Diag.code : Diag → BitVec 3
  | .none => 0
  | .unknownOpcode => 1
  | .unknownFunct => 2
  | .unknownImmSubop => 3
  | .unknownLoadSubop => 4
  | .unknownStoreSubop => 5

/-- The ports of rule R25 but for `clk` and `rst`, which `clockEdge` takes. A value the spec calls don't-care,
or that the memory did not give, is absent (log entry 18). -/
structure Ports where
  imemAddr : Word
  imemRdata : Option Word
  dmemAddr : Option Word
  dmemRe : Bool
  dmemRdata : Option Word
  dmemWe : Bool
  dmemWdata : Option Word
  run : Bool
  diag : BitVec 3
  memFault : Bool
  deriving DecidableEq, Repr

/-- The ports when the fetch is refused. -/
def refusedFetchPorts (s : State) : Ports where
  imemAddr := s.current.pc
  imemRdata := none
  dmemAddr := none
  dmemRe := false
  dmemRdata := none
  dmemWe := false
  dmemWdata := none
  run := s.run
  diag := Diag.none.code
  memFault := true

/-- The ports when the fetched word is `w`. A refused access produces no diagnostic (rule R149). -/
def portsOf (s : State) (w : Word) : Ports :=
  let k := control s.cfg.codes w
  { imemAddr := s.current.pc
    imemRdata := some w
    dmemAddr := if k.read || k.write then some (k.result s w) else none
    dmemRe := k.read
    dmemRdata := match k.readData s w with
      | .ok data => data
      | .error _ => none
    dmemWe := k.write
    dmemWdata := some (s.reg (rtOf w))
    run := s.run
    diag := match datapath s w with
      | .ok t => t.diag.code
      | .error _ => Diag.none.code
    memFault := match datapath s w with
      | .ok _ => false
      | .error _ => true }

/-- The ports of rule R25 in a state. -/
def ports (s : State) : Ports :=
  match s.fetch with
  | .error _ => refusedFetchPorts s
  | .ok w => portsOf s w

end Sys2Proof.Machine
end

