-- ==== Sys2Proof/Safety.lean ====
section
/-! DEFINITION. The words claims are made in: what a cycle leaves, when a run has ended or is stuck, the machine's
invariant. -/

namespace Sys2Proof

/-- Every listed address is mapped (rule R30: memory is defined where `MAPPED` holds). -/
def Config.holds (c : Config) (m : Memory) : Prop := ∀ cell ∈ m, c.isMapped cell.1 = true

namespace Machine

/-- The run has ended (rule R164). -/
def State.ended (s : State) : Prop := s.run = false

/-- The machine has no step (rules R26, R36). -/
def State.stuck (s : State) : Prop := ∃ f, step s = .fault f

/-- `k` steps of the host's machine from `s`, stopping at the first fault (rule R163). -/
def runSteps (k : Nat) (s : State) : Host.Outcome State Fault Refusal := core.run k s

/-- The parts of the state no instruction but `syscall` and `sw` may touch, the program counter's advance, and the
commit: what every completed cycle has in common. -/
structure Advances (s t : State) : Prop where
  /-- `N.PC = C.PC + 4` (rule R14), at the width its formula is for; `AdvancesModWidth` says it at every width. -/
  pc : s.cfg.pcWidth = 32 → t.current.pc = s.current.pc + 4
  committed : t.next = t.current
  cfg : t.cfg = s.cfg

/-- The program counter is 4 further on modulo 2^PC_WIDTH (rules R7, R14; log entry 13). -/
def AdvancesModWidth (s t : State) : Prop := t.current.pc.toNat = (s.current.pc.toNat + 4) % 2 ^ s.cfg.pcWidth.val

/-- Every byte of memory reads as before. -/
def SameMemory (s t : State) : Prop := ∀ k, t.byteAt k = s.byteAt k

/-- The cycle from `s` to `t` wrote `v` to register `d` and changed nothing else: every other register, the run
flag and every byte of memory as before, the program counter 4 further on, nothing reported. -/
structure WritesRegister (s t : State) (d : RegIdx) (v : Word) : Prop extends Advances s t where
  value : t.reg d = v
  others : ∀ r, r ≠ d → t.reg r = s.reg r
  run : t.run = s.run
  memory : SameMemory s t
  diag : t.diag = .none

/-- The cycle from `s` to `t` left NEXT at its pre-initialised copy: no register, no byte of memory and not the run
flag changed, the program counter 4 further on; it reported `d`. -/
structure OnlyReports (s t : State) (d : Diag) : Prop extends Advances s t where
  registers : ∀ r, t.reg r = s.reg r
  run : t.run = s.run
  memory : SameMemory s t
  diag : t.diag = d

/-- The word at `a` may be accessed: its four bytes are mapped, and it is aligned where the memory asks for that
(rules R35, R36). -/
def State.admits (s : State) (a : Word) : Prop :=
  s.cfg.mapsWord a = true ∧ (s.cfg.misaligned = .refuse → a.toNat % 4 = 0)

/-- The word at `a` as the four bytes in memory give it (rule R31). -/
def State.wordAt (s : State) (a : Word) : Word := s.mem.wordAt s.cfg.byteOrder a

/-- The base and offset of the data access a decoded word makes, if it makes one (rule R47): `lw` and the reserved
loads read, `sw` writes, nothing else touches memory. -/
def dataAccess : Decoded → Option (RegIdx × Imm16)
  | .instr (.lw _ imm rs) => some (rs, imm)
  | .instr (.lb _ imm rs) => some (rs, imm)
  | .instr (.lh _ imm rs) => some (rs, imm)
  | .instr (.lbu _ imm rs) => some (rs, imm)
  | .instr (.lhu _ imm rs) => some (rs, imm)
  | .instr (.sw _ imm rs) => some (rs, imm)
  | .unknown (.loadSubop imm rs) => some (rs, imm)
  | _ => none

/-- The registers an instruction word reads from CURRENT (the table of rule R12). -/
def sourceRegisters : Decoded → List RegIdx
  | .instr i => match i with
    | .add _ rs rt _ | .addu _ rs rt _ | .sub _ rs rt _ | .subu _ rs rt _ | .and _ rs rt _ | .or _ rs rt _
    | .xor _ rs rt _ | .nor _ rs rt _ | .slt _ rs rt _ | .sltu _ rs rt _ => [rs, rt]
    | .syscall _ => [2]
    | .addi _ rs _ | .addiu _ rs _ | .slti _ rs _ | .sltiu _ rs _ | .andi _ rs _ | .ori _ rs _ | .xori _ rs _ => [rs]
    | .lui _ _ _ => []
    | .lw _ _ rs => [rs]
    | .sw rt _ rs => [rs, rt]
    | .lb _ _ rs | .lh _ _ rs | .lbu _ _ rs | .lhu _ _ rs => [rs]
    | .sb _ _ _ | .sh _ _ _ => []
  | .unknown u => match u with
    | .opcode | .funct | .immSubop | .storeSubop => []
    | .loadSubop _ rs => [rs]

/-- The register an instruction word writes in NEXT, if any (the table of rule R12). -/
def destinationRegister : Decoded → Option RegIdx
  | .instr i => match i with
    | .add rd _ _ _ | .addu rd _ _ _ | .sub rd _ _ _ | .subu rd _ _ _ | .and rd _ _ _ | .or rd _ _ _ | .xor rd _ _ _
    | .nor rd _ _ _ | .slt rd _ _ _ | .sltu rd _ _ _ => some rd
    | .addi rt _ _ | .addiu rt _ _ | .slti rt _ _ | .sltiu rt _ _ | .andi rt _ _ | .ori rt _ _ | .xori rt _ _ => some rt
    | .lui rt _ _ | .lw rt _ _ => some rt
    | .syscall _ | .sw _ _ _ | .lb _ _ _ | .lh _ _ _ | .lbu _ _ _ | .lhu _ _ _ | .sb _ _ _ | .sh _ _ _ => none
  | .unknown _ => none

/-- The words of the opcode-table row with this match value and the R-layout mask are exactly those that decode to
`mk`, with the register fields where rule R51 puts them. -/
def DecodesAsR (value : Word) (mk : RegIdx → RegIdx → RegIdx → BitVec 5 → Instr) : Prop :=
  ∀ w : Word,
    (w &&& 0xFC00003F = value → decode w = .instr (mk (rdOf w) (rsOf w) (rtOf w) (shamtOf w))) ∧
    (∀ rd rs rt shamt, decode w = .instr (mk rd rs rt shamt) → w &&& 0xFC00003F = value)

/-- The same of the I-layout mask, for the operand order `op $rt,$rs,imm` (rule R52). -/
def DecodesAsI (value : Word) (mk : RegIdx → RegIdx → Imm16 → Instr) : Prop :=
  ∀ w : Word,
    (w &&& 0xFC000000 = value → decode w = .instr (mk (rtOf w) (rsOf w) (immOf w))) ∧
    (∀ rt rs imm, decode w = .instr (mk rt rs imm) → w &&& 0xFC000000 = value)

/-- The same of the I-layout mask, for the operand order `op $rt,imm($rs)` and for `lui` (rule R52). -/
def DecodesAsL (value : Word) (mk : RegIdx → Imm16 → RegIdx → Instr) : Prop :=
  ∀ w : Word,
    (w &&& 0xFC000000 = value → decode w = .instr (mk (rtOf w) (immOf w) (rsOf w))) ∧
    (∀ rt imm rs, decode w = .instr (mk rt imm rs) → w &&& 0xFC000000 = value)

/-- In every state and for all operands, executing `mk rd rs rt shamt` completes and writes `f C.R[rs] C.R[rt]` to
register rd and nothing else. -/
def RegisterForm (mk : RegIdx → RegIdx → RegIdx → BitVec 5 → Instr) (f : Word → Word → Word) : Prop :=
  ∀ (s : State) (rd rs rt : RegIdx) (shamt : BitVec 5),
    ∃ t, exec (mk rd rs rt shamt) s = .next t ∧ WritesRegister s t rd (f (s.reg rs) (s.reg rt))

/-- In every state and for all operands, executing `mk rt rs imm` completes and writes `f C.R[rs] imm` to register
rt and nothing else. -/
def ImmediateForm (mk : RegIdx → RegIdx → Imm16 → Instr) (f : Word → Imm16 → Word) : Prop :=
  ∀ (s : State) (rt rs : RegIdx) (imm : Imm16),
    ∃ t, exec (mk rt rs imm) s = .next t ∧ WritesRegister s t rt (f (s.reg rs) imm)

/-- Executing `mk rt imm rs` completes wherever the word at base plus offset may be read, and only reports; where it
may not, the machine is stuck. -/
def ReservedLoadForm (mk : RegIdx → Imm16 → RegIdx → Instr) : Prop :=
  ∀ (s : State) (rt rs : RegIdx) (imm : Imm16),
    (s.admits (s.reg rs + imm.signExtend 32) →
      ∃ t, exec (mk rt imm rs) s = .next t ∧ OnlyReports s t .unknownLoadSubop) ∧
    (¬ s.admits (s.reg rs + imm.signExtend 32) → ∃ f, exec (mk rt imm rs) s = .fault f)

/-- In every state and for all operands, executing `mk rt imm rs` completes and only reports, whatever the memory
admits. -/
def ReservedStoreForm (mk : RegIdx → Imm16 → RegIdx → Instr) : Prop :=
  ∀ (s : State) (rt rs : RegIdx) (imm : Imm16),
    ∃ t, exec (mk rt imm rs) s = .next t ∧ OnlyReports s t .unknownStoreSubop

/-- `s` is little-endian, `b` big-endian, both refuse misaligned accesses, and they agree on all else but the order
of the bytes inside each aligned word of memory. -/
structure ByteSwapped (s b : State) : Prop where
  little : s.cfg.byteOrder = .little
  refuse : s.cfg.misaligned = .refuse
  cfg : b.cfg = { s.cfg with byteOrder := .big }
  current : b.current = s.current
  run : b.run = s.run
  diag : b.diag = s.diag
  bytes : ∀ a : Word, a.toNat % 4 = 0 → ∀ k, k < 4 → b.byteAt (byteAddr a k) = s.byteAt (byteAddr a (3 - k))

/-- The program counter has no bit above its width (rule R7). -/
def State.pcFits (s : State) : Prop := s.current.pc.toNat < 2 ^ s.cfg.pcWidth.val

/-- The invariant of the machine: memory canonical and within the mapped region, the image it resets to likewise,
the program counter within its width, NEXT committed. -/
structure State.Inv (s : State) : Prop where
  memCanonical : s.mem.wf = true
  memMapped : s.cfg.holds s.mem
  imageCanonical : s.cfg.image.wf = true
  imageMapped : s.cfg.holds s.cfg.image
  pcFits : s.pcFits
  committed : s.next = s.current

end Machine

end Sys2Proof
end

