-- ==== Sys2Proof/Certificates/Slice0/Obligations.lean ====
section
/-! DEFINITION. The statements for the provers. Nothing here rests on a value the model chose unless its docstring
says so: statements quantify over every state, and with it over every choice of the parameters of rule R7. The
selector numbers in the encoding clauses are those the rules of the instructions state; the spec marks them as its
decision D1 (log entry 16). -/

open Sys2Proof Sys2Proof.Machine

/-! ### Encoding and decoding -/

/-- Rules R70 and R71: `bits` is the right-shift-and-mask computation on its whole domain, fits its width, gives
back the word over the full range, and 0 or 1 for a single bit. -/
def Obligations.BitsIsShiftAndMask : Prop :=
  ∀ (w : Word) (hi lo : Nat) (h : lo ≤ hi ∧ hi ≤ 31),
    (bits w hi lo h).toNat = w.toNat / 2 ^ lo % 2 ^ (hi - lo + 1) ∧
    (bits w hi lo h).toNat < 2 ^ (hi - lo + 1) ∧
    (bits w 31 0).toNat = w.toNat ∧
    (hi = lo → (bits w hi lo h).toNat = 0 ∨ (bits w hi lo h).toNat = 1)

/-- Rule R72 with the numbers of rules R57 to R59: the category of each of the 64 opcodes. The numbers are the spec's
decisions D1 and D2 (log entry 16). -/
def Obligations.ClassifierMapsEveryOpcode : Prop :=
  ∀ op : BitVec 6, classify Codes.mipsI op =
    if op.toNat = 0 then .registerOp
    else if 8 ≤ op.toNat ∧ op.toNat ≤ 15 then .immediateAlu
    else if op.toNat ∈ [32, 33, 35, 36, 37] then .load
    else if op.toNat ∈ [40, 41, 43] then .store
    else .unknown

/-- Words written out in 95_test_vectors.md decode to the instructions they stand for, one at least per family, and
the words of no instruction are rejected under their names. The numbers are the spec's decisions D1 and D2 (log entry
16). -/
def Obligations.SpecWordsDecode : Prop :=
  decode 0x01095020 = .instr (.add 10 8 9 0) ∧
  decode 0x010957E0 = .instr (.add 10 8 9 31) ∧
  decode 0x0109502B = .instr (.sltu 10 8 9 0) ∧
  decode 0x03FFFFCC = .instr (.syscall 0xFFFFF) ∧
  decode 0x2109FFFF = .instr (.addi 9 8 0xFFFF) ∧
  decode 0x3DE91234 = .instr (.lui 9 0x1234 15) ∧
  decode 0x8D09FFFC = .instr (.lw 9 0xFFFC 8) ∧
  decode 0x95090000 = .instr (.lhu 9 0 8) ∧
  decode 0xAD090004 = .instr (.sw 9 4 8) ∧
  decode 0xA5090000 = .instr (.sh 9 0 8) ∧
  decode 0x01200008 = .unknown .funct ∧
  decode 0x89090000 = .unknown .opcode

/-- The default table is well-formed, and every instruction exists under it (rules R57 to R60). The numbers are the
spec's decisions D1 and D2 (log entry 16). -/
def Obligations.DefaultTableWellFormed : Prop :=
  Codes.mipsI.wellFormed = true ∧ ∀ i : Instr, i.wellFormed Codes.mipsI = true

/-- Decode and encode agree: under every well-formed table, every instruction that exists under it, with every
operand and every ignored field at every value, is decoded from its own word. -/
def Obligations.DecodeAfterEncode : Prop :=
  ∀ (c : Codes) (i : Instr), c.wellFormed = true → i.wellFormed c = true →
    decodeWith c (encodeWith c i) = .instr i

/-- The other direction: a word that decodes to an instruction is that instruction's word, so that no bit is dropped
and no two words read alike. -/
def Obligations.EncodeAfterDecode : Prop :=
  ∀ (c : Codes) (w : Word) (i : Instr), c.wellFormed = true → decodeWith c w = .instr i →
    i.wellFormed c = true ∧ encodeWith c i = w

/-- Under the default numbers the words that are no instruction are the unknown opcodes and the unknown function codes
and no others (rules R62, R101): the unknown immediate sub-opcode cannot be reached (rule R119), and every reserved
opcode is a row of the table. The numbers are the spec's decisions D1 and D2 (log entry 16). -/
def Obligations.WordsThatAreNoInstruction : Prop :=
  ∀ w : Word,
    (decode w = .unknown .opcode ↔ (opcodeOf w).toNat ∉ [0, 8, 9, 10, 11, 12, 13, 14, 15, 32, 33, 35, 36, 37, 40, 41, 43]) ∧
    (decode w = .unknown .funct ↔
      opcodeOf w = 0 ∧ (functOf w).toNat ∉ [12, 32, 33, 34, 35, 36, 37, 38, 39, 42, 43]) ∧
    (∀ u, decode w = .unknown u → u = .opcode ∨ u = .funct)

/-- Rule R54: of two words that agree but for the fields an instruction ignores, each has the effect of the other:
`shamt` in the register-op family, bits 25:6 of `syscall`, `rs` of `lui`. That a field not used is ignored is the
spec's decision D15. -/
def Obligations.UnusedFieldsIgnored : Prop :=
  ∀ (s : State) (w v : Word), s.cfg.codes = Codes.mipsI →
    (opcodeOf w = 0 → opcodeOf v = 0 → rsOf w = rsOf v → rtOf w = rtOf v → rdOf w = rdOf v → functOf w = functOf v →
      execute w s = execute v s) ∧
    (opcodeOf w = 0 → opcodeOf v = 0 → functOf w = 12 → functOf v = 12 → execute w s = execute v s) ∧
    (opcodeOf w = 15 → opcodeOf v = 15 → rtOf w = rtOf v → immOf w = immOf v → execute w s = execute v s)

/-! ### Operands and the ALU -/

/-- Rule R53, the values: the sign-extended immediate is the immediate read as signed, the zero-extended one as
unsigned, and `lui`'s is the unsigned one times 65536. -/
def Obligations.ImmediateExtension : Prop :=
  ∀ imm : Imm16,
    (sext32 imm).toInt = imm.toInt ∧
    (zext32 imm).toNat = imm.toNat ∧
    (upperHalf (zext32 imm)).toNat = imm.toNat * 65536

/-- Rules R79 and R80: the nine operations, by what they compute on the values of their operands. The ALU as one unit
is the spec's decision D13. -/
def Obligations.AluComputes : Prop :=
  ∀ a b : Word,
    (alu .add a b).toNat = (a.toNat + b.toNat) % 2 ^ 32 ∧
    ((alu .sub a b).toNat : Int) = ((a.toNat : Int) - b.toNat) % 2 ^ 32 ∧
    (∀ k, k < 32 → (alu .and a b).getLsbD k = (a.getLsbD k && b.getLsbD k)) ∧
    (∀ k, k < 32 → (alu .or a b).getLsbD k = (a.getLsbD k || b.getLsbD k)) ∧
    (∀ k, k < 32 → (alu .xor a b).getLsbD k = (a.getLsbD k != b.getLsbD k)) ∧
    (∀ k, k < 32 → (alu .nor a b).getLsbD k = !(a.getLsbD k || b.getLsbD k)) ∧
    alu .slt a b = (if a.toInt < b.toInt then 1 else 0) ∧
    alu .sltu a b = (if a.toNat < b.toNat then 1 else 0) ∧
    (alu .lui a b).toNat = b.toNat % 65536 * 65536

/-- Rule R125, the effective address: base plus signed byte offset, modulo 2^32. -/
def Obligations.EffectiveAddressWraps : Prop :=
  ∀ (base : Word) (imm : Imm16),
    ((effectiveAddress base imm).toNat : Int) = ((base.toNat : Int) + imm.toInt) % 2 ^ 32

/-- Rule R80: `add` and `addu`, `sub` and `subu`, `addi` and `addiu` are the same function of the state. The rule
marks it as its own inference from two's complement arithmetic. -/
def Obligations.SignedAndUnsignedArithmeticAgree : Prop :=
  ∀ (s : State) (rd rs rt : RegIdx) (shamt : BitVec 5) (imm : Imm16),
    exec (.add rd rs rt shamt) s = exec (.addu rd rs rt shamt) s ∧
    exec (.sub rd rs rt shamt) s = exec (.subu rd rs rt shamt) s ∧
    exec (.addi rt rs imm) s = exec (.addiu rt rs imm) s

/-! ### The instructions: encoding, effect, completion and frame -/

/-- Rules R90 and R91. Encoding, result modulo 2^32, frame; they complete in every state. -/
def Obligations.RegisterAddition : Prop :=
  DecodesAsR 0x00000020 .add ∧ DecodesAsR 0x00000021 .addu ∧
  RegisterForm .add (fun a b => a + b) ∧ RegisterForm .addu (fun a b => a + b)

/-- The same of rules R92 and R93. The order, source 1 minus source 2, is the spec's decision D14. -/
def Obligations.RegisterSubtraction : Prop :=
  DecodesAsR 0x00000022 .sub ∧ DecodesAsR 0x00000023 .subu ∧
  RegisterForm .sub (fun a b => a - b) ∧ RegisterForm .subu (fun a b => a - b)

/-- Rules R94 to R97. -/
def Obligations.RegisterLogic : Prop :=
  DecodesAsR 0x00000024 .and ∧ DecodesAsR 0x00000025 .or ∧ DecodesAsR 0x00000026 .xor ∧ DecodesAsR 0x00000027 .nor ∧
  RegisterForm .and (fun a b => a &&& b) ∧ RegisterForm .or (fun a b => a ||| b) ∧
  RegisterForm .xor (fun a b => a ^^^ b) ∧ RegisterForm .nor (fun a b => ~~~(a ||| b))

/-- Rules R98 and R99: the whole destination becomes 1 or 0. -/
def Obligations.RegisterComparison : Prop :=
  DecodesAsR 0x0000002A .slt ∧ DecodesAsR 0x0000002B .sltu ∧
  RegisterForm .slt (fun a b => if a.toInt < b.toInt then 1 else 0) ∧
  RegisterForm .sltu (fun a b => if a.toNat < b.toNat then 1 else 0)

/-- Rule R100: the encoding; with all of register 2 equal to 10 the run flag is cleared, with any other value nothing
but the program counter changes; in both cases no register and no byte of memory changes, the program counter advances
and nothing is reported. That nothing is reported is the spec's decision D12. -/
def Obligations.SyscallExits : Prop :=
  (∀ w : Word,
    (w &&& 0xFC00003F = 0x0000000C → decode w = .instr (.syscall (middleOf w))) ∧
    (∀ ignored, decode w = .instr (.syscall ignored) → w &&& 0xFC00003F = 0x0000000C)) ∧
  (∀ (s : State) (ignored : BitVec 20),
    (s.reg 2 = 10 → ∃ t, exec (.syscall ignored) s = .next t ∧ Advances s t ∧ t.run = false ∧
      (∀ r, t.reg r = s.reg r) ∧ SameMemory s t ∧ t.diag = .none) ∧
    (s.reg 2 ≠ 10 → ∃ t, exec (.syscall ignored) s = .next t ∧ OnlyReports s t .none))

/-- Rules R111 and R112: the immediate is sign-extended in both. -/
def Obligations.ImmediateArithmetic : Prop :=
  DecodesAsI 0x20000000 .addi ∧ DecodesAsI 0x24000000 .addiu ∧
  ImmediateForm .addi (fun a imm => a + imm.signExtend 32) ∧ ImmediateForm .addiu (fun a imm => a + imm.signExtend 32)

/-- Rules R113 and R114: the register is the left operand; both sign-extend the immediate. The direction of the
comparison is the spec's decision D14. -/
def Obligations.ImmediateComparison : Prop :=
  DecodesAsI 0x28000000 .slti ∧ DecodesAsI 0x2C000000 .sltiu ∧
  ImmediateForm .slti (fun a imm => if a.toInt < (imm.signExtend 32).toInt then 1 else 0) ∧
  ImmediateForm .sltiu (fun a imm => if a.toNat < (imm.signExtend 32).toNat then 1 else 0)

/-- Rules R115 to R117: the immediate is zero-extended. -/
def Obligations.ImmediateLogic : Prop :=
  DecodesAsI 0x30000000 .andi ∧ DecodesAsI 0x34000000 .ori ∧ DecodesAsI 0x38000000 .xori ∧
  ImmediateForm .andi (fun a imm => a &&& imm.setWidth 32) ∧ ImmediateForm .ori (fun a imm => a ||| imm.setWidth 32) ∧
  ImmediateForm .xori (fun a imm => a ^^^ imm.setWidth 32)

/-- Rule R118: the upper half is the immediate, the lower half 0, whatever the state. -/
def Obligations.LoadUpperImmediate : Prop :=
  DecodesAsL 0x3C000000 .lui ∧
  (∀ (s : State) (rt rs : RegIdx) (imm : Imm16),
    ∃ t, exec (.lui rt imm rs) s = .next t ∧ WritesRegister s t rt (imm ++ (0 : BitVec 16)))

/-- Rule R126: the encoding; where the word at base plus offset may be read, the destination takes it, all 32 bits,
and nothing else changes; where it may not, the machine is stuck. When it may not is the spec's decisions D6 and D7
(rules R35, R36), the fault the model's form of it (log entry 14). -/
def Obligations.LoadWord : Prop :=
  DecodesAsL 0x8C000000 .lw ∧
  (∀ (s : State) (rt rs : RegIdx) (imm : Imm16),
    (s.admits (s.reg rs + imm.signExtend 32) →
      ∃ t, exec (.lw rt imm rs) s = .next t ∧
        WritesRegister s t rt (s.wordAt (s.reg rs + imm.signExtend 32))) ∧
    (¬ s.admits (s.reg rs + imm.signExtend 32) → ∃ f, exec (.lw rt imm rs) s = .fault f))

/-- Rules R127 to R131: the reserved loads read, load nothing and report. The category and the read being made are the
spec's decisions D2 and D18. That a refused read leaves the machine stuck is its decisions D6 and D7 (rules R35, R36),
the fault the model's form of it (log entry 14). -/
def Obligations.ReservedLoads : Prop :=
  DecodesAsL 0x80000000 .lb ∧ DecodesAsL 0x84000000 .lh ∧ DecodesAsL 0x90000000 .lbu ∧ DecodesAsL 0x94000000 .lhu ∧
  ReservedLoadForm .lb ∧ ReservedLoadForm .lh ∧ ReservedLoadForm .lbu ∧ ReservedLoadForm .lhu

/-- Rule R136, with rule R32: the encoding; where the word at base plus offset may be written, its four bytes become
those of the data register in the memory's byte order, every other byte reads as before, no register and not the
run flag changes, nothing is reported; where it may not, the machine is stuck. Memory in canonical form is assumed,
which every reachable state has (StepKeepsInvariant). When the machine is stuck is the spec's decisions D6 and D7
(rules R35, R36), the fault the model's form of it (log entry 14). -/
def Obligations.StoreWord : Prop :=
  DecodesAsL 0xAC000000 .sw ∧
  (∀ (s : State) (rt rs : RegIdx) (imm : Imm16), s.mem.wf = true →
    (s.admits (s.reg rs + imm.signExtend 32) →
      ∃ t, exec (.sw rt imm rs) s = .next t ∧ Advances s t ∧ (∀ r, t.reg r = s.reg r) ∧ t.run = s.run ∧
        t.diag = .none ∧
        (∀ k, k < 4 → t.byteAt (byteAddr (s.reg rs + imm.signExtend 32) k) =
          byteOfWord s.cfg.byteOrder (s.reg rt) k) ∧
        (∀ j, (∀ k, k < 4 → j ≠ byteAddr (s.reg rs + imm.signExtend 32) k) → t.byteAt j = s.byteAt j)) ∧
    (¬ s.admits (s.reg rs + imm.signExtend 32) → ∃ f, exec (.sw rt imm rs) s = .fault f))

/-- Rules R137 to R139: the reserved stores make no access and report, mapped address or not. The category and the
absence of an access are the spec's decisions D2 and D18. -/
def Obligations.ReservedStores : Prop :=
  DecodesAsL 0xA0000000 .sb ∧ DecodesAsL 0xA4000000 .sh ∧ ReservedStoreForm .sb ∧ ReservedStoreForm .sh

/-- Rule R74: an unknown opcode advances the program counter, reports, and changes nothing else. -/
def Obligations.UnknownOpcodeOnlyReports : Prop :=
  ∀ (s : State) (w : Word), classify s.cfg.codes (opcodeOf w) = .unknown →
    ∃ t, execute w s = .next t ∧ OnlyReports s t .unknownOpcode

/-- Rule R101: so does an unknown function code. -/
def Obligations.UnknownFunctOnlyReports : Prop :=
  ∀ (s : State) (w : Word), s.cfg.codes = Codes.mipsI → opcodeOf w = 0 →
    (functOf w).toNat ∉ [12, 32, 33, 34, 35, 36, 37, 38, 39, 42, 43] →
    ∃ t, execute w s = .next t ∧ OnlyReports s t .unknownFunct

/-- Rule R147: whatever the table of numbers, a word that reports a kind leaves NEXT at its pre-initialised copy, and
each of the five unknown cases does so but for the kind it reports and the read an unknown load makes first. That
read is the spec's decision D18, being stuck where it is refused its decisions D6 and D7 and in its form the model's
(log entry 14); the unreachable immediate case has its effect by log entry 25. -/
def Obligations.UnknownCasesAlike : Prop :=
  ∀ s : State,
    (∀ (w : Word) (t : State), execute w s = .next t → t.diag ≠ .none → OnlyReports s t t.diag) ∧
    (∃ t, execUnknown .opcode s = .next t ∧ OnlyReports s t .unknownOpcode) ∧
    (∃ t, execUnknown .funct s = .next t ∧ OnlyReports s t .unknownFunct) ∧
    (∃ t, execUnknown .immSubop s = .next t ∧ OnlyReports s t .unknownImmSubop) ∧
    (∃ t, execUnknown .storeSubop s = .next t ∧ OnlyReports s t .unknownStoreSubop) ∧
    (∀ (imm : Imm16) (rs : RegIdx), s.admits (s.reg rs + imm.signExtend 32) →
      ∃ t, execUnknown (.loadSubop imm rs) s = .next t ∧ OnlyReports s t .unknownLoadSubop) ∧
    (∀ (imm : Imm16) (rs : RegIdx), ¬ s.admits (s.reg rs + imm.signExtend 32) →
      ∃ f, execUnknown (.loadSubop imm rs) s = .fault f)

/-- Rules R146 and R149: what each word reports under the default numbers, by the order of decoding, and the number of
each kind. The typed outcome and its numbers are the spec's decision D11. -/
def Obligations.DiagnosticOfEveryWord : Prop :=
  (∀ (s t : State) (w : Word), s.cfg.codes = Codes.mipsI → execute w s = .next t →
    t.diag =
      if (opcodeOf w).toNat ∉ [0, 8, 9, 10, 11, 12, 13, 14, 15, 32, 33, 35, 36, 37, 40, 41, 43] then .unknownOpcode
      else if opcodeOf w = 0 ∧ (functOf w).toNat ∉ [12, 32, 33, 34, 35, 36, 37, 38, 39, 42, 43] then .unknownFunct
      else if classify Codes.mipsI (opcodeOf w) = .load ∧ wordSubop w ≠ 3 then .unknownLoadSubop
      else if classify Codes.mipsI (opcodeOf w) = .store ∧ wordSubop w ≠ 3 then .unknownStoreSubop
      else .none) ∧
  [Diag.none, .unknownOpcode, .unknownFunct, .unknownImmSubop, .unknownLoadSubop, .unknownStoreSubop].map Diag.code =
    [0, 1, 2, 3, 4, 5]

/-- Rule R11: register 0 is written and read like any other; the rule's own example, in every state. -/
def Obligations.RegisterZeroIsOrdinary : Prop :=
  ∀ s : State, s.cfg.codes = Codes.mipsI → s.reg 8 = 5 → s.reg 9 = 7 →
    ∃ t u, execute 0x01090020 s = .next t ∧ t.reg 0 = 12 ∧ execute 0x00085021 t = .next u ∧ u.reg 10 = 17

/-! ### Memory -/

/-- Rules R31 and R33: the word at an address, from the bytes at it and the three after it modulo 2^32, for both byte
orders; and the byte each position of a stored word takes. The byte order is the spec's parameter, decision D5. -/
def Obligations.WordFromBytes : Prop :=
  ∀ (s : State) (a v : Word),
    (s.cfg.byteOrder = .little →
      s.wordAt a = s.byteAt (a + 3).toNat ++ s.byteAt (a + 2).toNat ++ s.byteAt (a + 1).toNat ++ s.byteAt a.toNat) ∧
    (s.cfg.byteOrder = .big →
      s.wordAt a = s.byteAt a.toNat ++ s.byteAt (a + 1).toNat ++ s.byteAt (a + 2).toNat ++ s.byteAt (a + 3).toNat) ∧
    byteOfWord .little v 0 = bits v 7 0 ∧ byteOfWord .little v 1 = bits v 15 8 ∧
    byteOfWord .little v 2 = bits v 23 16 ∧ byteOfWord .little v 3 = bits v 31 24 ∧
    byteOfWord .big v 0 = bits v 31 24 ∧ byteOfWord .big v 1 = bits v 23 16 ∧
    byteOfWord .big v 2 = bits v 15 8 ∧ byteOfWord .big v 3 = bits v 7 0

/-- Rules R35 and R36: an access is made exactly when all four bytes are mapped and, where the memory refuses
misaligned addresses, the address is a multiple of 4; a read then answers the word there, never another value. Both
conditions are the spec's decisions D6 and D7. -/
def Obligations.AccessAdmittedExactly : Prop :=
  ∀ (s : State) (kind : Access) (a v : Word),
    let good := (s.cfg.isMapped a.toNat = true ∧ s.cfg.isMapped (a + 1).toNat = true ∧
      s.cfg.isMapped (a + 2).toNat = true ∧ s.cfg.isMapped (a + 3).toNat = true) ∧
      (s.cfg.misaligned = .refuse → a.toNat % 4 = 0)
    (good → s.memRead kind a = .ok (s.wordAt a) ∧ ∃ t, s.memWrite a v = .ok t) ∧
    (¬ good → (∃ f, s.memRead kind a = .error f) ∧ ∃ f, s.memWrite a v = .error f)

/-- Rule R43: a word stored to A is what a later load from A returns, aligned or not, if the four bytes at A have not
changed since. For every address and value: the rule's own inference from its source's property. -/
def Obligations.LoadReturnsStoredWord : Prop :=
  ∀ (s t u : State) (rt rt' rs rs' : RegIdx) (imm imm' : Imm16), s.mem.wf = true →
    exec (.sw rt imm rs) s = .next t →
    u.cfg = t.cfg →
    (∀ k, k < 4 → u.byteAt (byteAddr (s.reg rs + imm.signExtend 32) k) =
      t.byteAt (byteAddr (s.reg rs + imm.signExtend 32) k)) →
    u.reg rs' + imm'.signExtend 32 = s.reg rs + imm.signExtend 32 →
    ∃ v, exec (.lw rt' imm' rs') u = .next v ∧ v.reg rt' = s.reg rt

/-- Rule R44: a store to the word after the running instruction is the very next instruction executed. One memory and
a coherent fetch are the spec's decisions D3 and D17; that the next address wraps with the program counter is its
decision D4 and, at a width below 32, the model's reading (log entry 13). -/
def Obligations.StoreSeenByNextFetch : Prop :=
  ∀ (s t : State) (rt rs : RegIdx) (imm : Imm16), s.mem.wf = true → s.run = true →
    exec (.sw rt imm rs) s = .next t →
    (s.reg rs + imm.signExtend 32).toNat = (s.current.pc.toNat + 4) % 2 ^ s.cfg.pcWidth.val →
    t.fetch = .ok (s.reg rt) ∧ step t = execute (s.reg rt) t

/-- Rule R45: a `sw` whose effective address is its own address executes as the `sw` that was fetched, and the stored
word is what a later fetch of that address returns. The rule's own inference, on decision D17. -/
def Obligations.SelfStoreExecutesAsFetched : Prop :=
  ∀ (s : State) (rt rs : RegIdx) (imm : Imm16), s.mem.wf = true → s.run = true → s.admits s.current.pc →
    decodeWith s.cfg.codes (s.wordAt s.current.pc) = .instr (.sw rt imm rs) →
    s.reg rs + imm.signExtend 32 = s.current.pc →
    ∃ t, step s = .next t ∧ exec (.sw rt imm rs) s = .next t ∧
      t.memRead .fetch s.current.pc = .ok (s.reg rt)

/-- Rules R36 and R38 over the instruction set: only `sw` changes a byte of memory. -/
def Obligations.OnlyStoreWordChangesMemory : Prop :=
  ∀ (i : Instr) (s t : State), (∀ rt imm rs, i ≠ .sw rt imm rs) → exec i s = .next t → SameMemory s t

/-! ### The cycle and the whole machine -/

/-- A step runs the decoded instruction: when the run flag is 1 and the word at the program counter may be fetched,
step is exec of the instruction it decodes to, or the unknown case's effect (rules R75 to R77). The program counter's
advance is inside exec. That the fetch is from the program counter is the spec's decision D3. -/
def Obligations.StepRunsDecodedInstruction : Prop :=
  ∀ s : State, s.run = true → s.admits s.current.pc →
    (∀ i, decodeWith s.cfg.codes (s.wordAt s.current.pc) = .instr i → step s = exec i s) ∧
    (∀ u, decodeWith s.cfg.codes (s.wordAt s.current.pc) = .unknown u → step s = execUnknown u s)

/-- A word placed for the host is the one the next step executes, in every state with canonical memory, whatever its
byte order, mapped region and program counter. The placing is the model's own (log entry 11). -/
def Obligations.PlacedWordIsExecuted : Prop :=
  ∀ (s : State) (nbits w : Nat), s.mem.wf = true →
    step (s.withFetchWord nbits w) = execute (tableWord nbits w) (s.withFetchWord nbits w)

/-- Rules R26, R36 and R47: the machine is stuck exactly when it runs and the fetch, or the one data access of the
fetched word, is not admitted. A reserved store, an unknown word and every ALU instruction cannot make it so. No step
in such a case is the spec's decision D7 (log entry 14). -/
def Obligations.StuckExactlyOnRefusedAccess : Prop :=
  ∀ s : State, s.stuck ↔ s.run = true ∧
    (¬ s.admits s.current.pc ∨
      ∃ rs imm, dataAccess (decodeWith s.cfg.codes (s.wordAt s.current.pc)) = some (rs, imm) ∧
        ¬ s.admits (s.reg rs + imm.signExtend 32))

/-- Rules R62 and R145: no word and no state is refused. -/
def Obligations.NothingRefused : Prop :=
  ∀ (s : State) (r : Refusal), step s ≠ .refused r

/-- Rules R14, R22 and R165: every completed cycle, whatever the word, advances the program counter by 4, commits NEXT
and leaves the parameters alone; and so does every execution of a word however obtained. The advance is modulo
2^PC_WIDTH: the width 32 is the spec's decision D4, a narrower one the model's reading (log entry 13). -/
def Obligations.EveryCycleAdvances : Prop :=
  ∀ s t : State,
    (s.run = true → step s = .next t → Advances s t ∧ AdvancesModWidth s t) ∧
    (∀ w : Word, execute w s = .next t → Advances s t ∧ AdvancesModWidth s t)

/-- Rule R15: a step keeps the program counter's remainder modulo 4, and the counter wraps at the top, which is
0xFFFFFFFC at width 32. Width and wrap are the spec's decision D4 and, at a width below 32, the model's reading (log
entry 13). The premise, part of the machine's invariant (StepKeepsInvariant), holds of every state at width 32. -/
def Obligations.ProgramCounterAlignmentKept : Prop :=
  ∀ s t : State, s.pcFits → step s = .next t →
    t.current.pc.toNat % 4 = s.current.pc.toNat % 4 ∧
    (s.run = true → s.current.pc.toNat + 4 = 2 ^ s.cfg.pcWidth.val → t.current.pc = 0) ∧
    (s.run = true → s.cfg.pcWidth = 32 → s.current.pc = 0xFFFFFFFC → t.current.pc = 0)

/-- Rules R164 and R169: as long as the run has not ended, k steps move the program counter by exactly 4k: every
program is a straight line. The modulus is the spec's decision D4 and, at a width below 32, the model's reading (log
entry 13). The premise, part of the machine's invariant (StepKeepsInvariant), holds of every state at width 32. -/
def Obligations.ProgramsAreStraightLines : Prop :=
  ∀ (k : Nat) (s t : State), s.pcFits → runSteps k s = .next t → t.run = true →
    t.current.pc.toNat = (s.current.pc.toNat + 4 * k) % 2 ^ s.cfg.pcWidth.val ∧
    (s.cfg.pcWidth = 32 → t.current.pc = s.current.pc + BitVec.ofNat 32 (4 * k))

/-- Rules R17 and R164: the run flag is cleared only by a `syscall` executed with 10 in register 2, and no step sets
it. That no step sets it rests on the spec's decision D9 (log entry 8). -/
def Obligations.RunEndsOnlyAtExit : Prop :=
  ∀ s t : State, step s = .next t →
    (t.run = false ↔ s.run = false ∨
      ((∃ ignored, decodeWith s.cfg.codes (s.wordAt s.current.pc) = .instr (.syscall ignored)) ∧ s.reg 2 = 10))

/-- Rules R26 and R164: after the end of a run the state is frozen, for any number of steps. The frozen state is the
spec's decision D9, its form as a next state the model's (log entry 8). -/
def Obligations.EndedRunIsFrozen : Prop :=
  ∀ (k : Nat) (s : State), s.ended → runSteps k s = .next s

/-- Rules R77, R12 and R147: a word's execution writes at most one register, and none where the table of rule R12 gives
it no destination: when it is `syscall`, `sw`, a reserved load or store, any word of the store category, or no
instruction. -/
def Obligations.AtMostOneRegisterWritten : Prop :=
  ∀ (w : Word) (s t : State), execute w s = .next t →
    (∃ d, ∀ r, r ≠ d → t.reg r = s.reg r) ∧
    (destinationRegister (decodeWith s.cfg.codes w) = none → ∀ r, t.reg r = s.reg r) ∧
    ((∃ g, decodeWith s.cfg.codes w = .instr (.syscall g)) → ∀ r, t.reg r = s.reg r) ∧
    ((∃ rt imm rs, decodeWith s.cfg.codes w ∈ [.instr (.lb rt imm rs), .instr (.lh rt imm rs), .instr (.lbu rt imm rs),
      .instr (.lhu rt imm rs)]) → ∀ r, t.reg r = s.reg r) ∧
    ((∃ u, decodeWith s.cfg.codes w = .unknown u) → ∀ r, t.reg r = s.reg r) ∧
    (classify s.cfg.codes (opcodeOf w) = .store → ∀ r, t.reg r = s.reg r)

/-- Rule R12, its upper half: no word reads or writes a register but those of the table (the values written are in the
statements of the instructions). Two states that agree on the registers the table
says the word reads, and on all that is no register, take the word to the same end: the same access refused, or the
same memory, run flag and diagnostic, with the same value in the register the table says is written and every other
register as it was. -/
def Obligations.OperandsReadAndWritten : Prop :=
  ∀ (w : Word) (s s' : State), s'.current.pc = s.current.pc → s'.run = s.run → s'.mem = s.mem → s'.cfg = s.cfg →
    (∀ r ∈ sourceRegisters (decodeWith s.cfg.codes w), s'.reg r = s.reg r) →
    (∀ t, execute w s = .next t → ∃ t', execute w s' = .next t' ∧ t'.current.pc = t.current.pc ∧ t'.run = t.run ∧
      t'.mem = t.mem ∧ t'.diag = t.diag ∧
      (∀ r, destinationRegister (decodeWith s.cfg.codes w) = some r → t'.reg r = t.reg r) ∧
      (∀ r, destinationRegister (decodeWith s.cfg.codes w) ≠ some r → t.reg r = s.reg r ∧ t'.reg r = s'.reg r)) ∧
    (∀ f, execute w s = .fault f → execute w s' = .fault f)

/-- Rules R19 and R148: a cycle does not depend on what NEXT or the diagnostic held before it. -/
def Obligations.NextAndDiagnosticNeverRead : Prop :=
  ∀ (s : State) (n : Arch) (d : Diag), s.run = true → step { s with next := n, diag := d } = step s

/-- Rule R78: the core does not read the run flag: executing a word with it set or cleared gives the same registers,
memory and diagnostic, and the same refusals of an access. -/
def Obligations.ExecuteIgnoresRunFlag : Prop :=
  ∀ (w : Word) (s : State) (b : Bool),
    (∀ t, execute w s = .next t → ∃ u, execute w { s with run := b } = .next u ∧ u.current = t.current ∧
      u.mem = t.mem ∧ u.diag = t.diag) ∧
    (∀ f, execute w s = .fault f → execute w { s with run := b } = .fault f)

/-- The invariant of the machine: from every state that has it, a step that answers a next state keeps it. The
canonical form of memory is the model's (log entry 5), the width of the program counter as log entry 13 has it. -/
def Obligations.StepKeepsInvariant : Prop :=
  ∀ s t : State, s.Inv → step s = .next t → t.Inv

/-- The invariant holds after reset under every configuration whose image is canonical and mapped, and so after the
default reset. The values of the default reset are the model's choice (log entries 1, 2, 4, 5, 6, 7, 13). -/
def Obligations.ResetHasInvariant : Prop :=
  (∀ c : Config, c.image.wf = true → c.holds c.image → (State.resetOf c).Inv) ∧ State.reset.Inv

/-- Rule R27: the reset state holds RESET_REGS, RESET_PC, RESET_RUN and the loaded image, whatever the parameters, the
reset input brings the machine there from any state, and RESET_RUN is 1 by default. Parameters, and the default run
flag, by the spec's decisions D9 and D10 (log entry 3). That the reset input restores memory to the image is the
model's reading of `memory as loaded` (log entry 15), that a program counter narrower than RESET_PC takes its low
bits likewise (log entry 13). -/
def Obligations.ResetLeavesParameters : Prop :=
  (∀ c : Config, (State.resetOf c).current.regs = c.resetRegs ∧
    (State.resetOf c).current.pc.toNat = c.resetPc.toNat % 2 ^ c.pcWidth.val ∧
    (c.pcWidth = 32 → (State.resetOf c).current.pc = c.resetPc) ∧
    (State.resetOf c).run = c.resetRun ∧ (State.resetOf c).mem = c.image) ∧
  (∀ s : State, clockEdge true s = .next (State.resetOf s.cfg)) ∧
  State.reset = State.resetOf Config.standard ∧ Config.standard.resetRun = true ∧ Config.standard.pcWidth = 32

/-- Rule R161: the first cycle after reset executes the word at RESET_PC, whatever the parameters under which the
program counter can hold RESET_PC, as it can at width 32. The entry point is the spec's decision D10 (log entry 2). -/
def Obligations.FirstCycleFetchesFromResetPc : Prop :=
  ∀ c : Config, c.resetRun = true → c.resetPc.toNat < 2 ^ c.pcWidth.val → (State.resetOf c).admits c.resetPc →
    step (State.resetOf c) = execute ((State.resetOf c).wordAt c.resetPc) (State.resetOf c)

/-- The hardware of rules R25, R26 and R81 (control table, datapath, clock edge), written from the word's fields
alone, does in every state what the instruction semantics do. The hardware interface is the spec's decision D13 (log
entry 15). -/
def Obligations.ClockEdgeIsStep : Prop :=
  ∀ s : State, clockEdge false s = step s

/-- Rules R25 and R149: the ports. Where the fetch answers: addresses, enables and data of the memory ports, the run
flag, the memory's refusal, and the diagnostic of the cycle, which a refused access does not produce. The read data is
the word at the data address where the read is made and admitted, and absent otherwise; the write data is `C.R[rt]`
whatever the word. Where the fetch is refused: no data access, no diagnostic, the refusal shown. The ports are the
spec's decision D13, what is absent the model's choice (log entry 18). -/
def Obligations.PortsCarryTheCycle : Prop :=
  ∀ s : State,
    (∀ w : Word, s.fetch = .ok w →
      (ports s).imemAddr = s.current.pc ∧ (ports s).imemRdata = some w ∧ (ports s).run = s.run ∧
      ((ports s).dmemRe = true ↔ classify s.cfg.codes (opcodeOf w) = .load) ∧
      ((ports s).dmemWe = true ↔ ∃ rt imm rs, decodeWith s.cfg.codes w = .instr (.sw rt imm rs)) ∧
      (ports s).dmemAddr = (dataAccess (decodeWith s.cfg.codes w)).map (fun p => s.reg p.1 + p.2.signExtend 32) ∧
      (classify s.cfg.codes (opcodeOf w) = .load → s.admits (s.reg (rsOf w) + (immOf w).signExtend 32) →
        (ports s).dmemRdata = some (s.wordAt (s.reg (rsOf w) + (immOf w).signExtend 32))) ∧
      (classify s.cfg.codes (opcodeOf w) = .load → ¬ s.admits (s.reg (rsOf w) + (immOf w).signExtend 32) →
        (ports s).dmemRdata = none) ∧
      (classify s.cfg.codes (opcodeOf w) ≠ .load → (ports s).dmemRdata = none) ∧
      (ports s).dmemWdata = some (s.reg (rtOf w)) ∧
      (∀ rt imm rs, decodeWith s.cfg.codes w = .instr (.sw rt imm rs) → (ports s).dmemWdata = some (s.reg rt)) ∧
      (∀ t, execute w s = .next t → (ports s).memFault = false ∧ (ports s).diag = t.diag.code) ∧
      (∀ f, execute w s = .fault f → (ports s).memFault = true ∧ (ports s).diag = Diag.none.code)) ∧
    (∀ f, s.fetch = .error f →
      (ports s).imemAddr = s.current.pc ∧ (ports s).imemRdata = none ∧ (ports s).run = s.run ∧
      (ports s).dmemRe = false ∧ (ports s).dmemWe = false ∧ (ports s).dmemAddr = none ∧ (ports s).dmemRdata = none ∧
      (ports s).dmemWdata = none ∧ (ports s).memFault = true ∧ (ports s).diag = Diag.none.code)

/-- The words a program at word-aligned addresses sees do not depend on the byte order (rule R33), as a simulation:
two machines that refuse misaligned accesses, one little-endian and one big-endian, that agree on everything but the
order of the bytes inside each aligned word, take the same step and still agree; and where one is stuck so is the
other. The rule's own inference, for its parameters of decisions D5 and D6. -/
def Obligations.ByteOrderInvisibleWhenAligned : Prop :=
  ∀ s b : State, ByteSwapped s b → s.mem.wf = true → b.mem.wf = true →
    (∀ t, step s = .next t → ∃ u, step b = .next u ∧ ByteSwapped t u) ∧
    (∀ f, step s = .fault f → step b = .fault f)
end

