-- ==== Sys2Proof/Laws/Alu.lean ====
section
/-! SUPPORT. The ALU's comparisons and operand forms as plain equations. -/

namespace Sys2Proof.Machine

theorem lessSigned_eq (a b : Word) : lessSigned a b = if a.toInt < b.toInt then 1 else 0 := by
  simp only [lessSigned, truthWord, decide_eq_true_eq]

theorem lessUnsigned_eq (a b : Word) : lessUnsigned a b = if a.toNat < b.toNat then 1 else 0 := by
  simp only [lessUnsigned, truthWord, decide_eq_true_eq]

/-- The ALU's LUI of a zero-extended immediate puts it in the upper half (rule R118). -/
theorem upperHalf_zext32 (imm : Imm16) : upperHalf (zext32 imm) = imm ++ (0 : BitVec 16) := by
  unfold upperHalf zext32
  congr 1
  apply BitVec.eq_of_toNat_eq
  simp
  omega

theorem effectiveAddress_eq (base : Word) (imm : Imm16) :
    effectiveAddress base imm = base + imm.signExtend 32 := rfl

end Sys2Proof.Machine
end

