-- ==== Sys2Proof/Laws/Decode.lean ====
section
/-! SUPPORT. Field extraction meets assembly: each field of an assembled word is the field it was built from, and
a word is assembled from its own fields. One lemma per field and layout; decode proofs cite these. -/

namespace Sys2Proof

@[simp] theorem regOf_regField (r : RegIdx) : regOf (regField r) = r := by
  apply Fin.ext
  simp only [regOf, regField, BitVec.toNat_ofNat]
  omega

@[simp] theorem regField_regOf (b : BitVec 5) : regField (regOf b) = b := by
  simp [regOf, regField]

theorem opcodeOf_eq (w : Word) : opcodeOf w = w.extractLsb' 26 6 := rfl
theorem wordSubop_eq (w : Word) : wordSubop w = w.extractLsb' 26 3 := rfl
theorem rsOf_eq (w : Word) : rsOf w = regOf (w.extractLsb' 21 5) := rfl
theorem rtOf_eq (w : Word) : rtOf w = regOf (w.extractLsb' 16 5) := rfl
theorem rdOf_eq (w : Word) : rdOf w = regOf (w.extractLsb' 11 5) := rfl
theorem shamtOf_eq (w : Word) : shamtOf w = w.extractLsb' 6 5 := rfl
theorem functOf_eq (w : Word) : functOf w = w.extractLsb' 0 6 := rfl
theorem immOf_eq (w : Word) : immOf w = w.extractLsb' 0 16 := rfl
theorem middleOf_eq (w : Word) : middleOf w = w.extractLsb' 6 20 := rfl

/-- `subop` is the low three bits of the opcode (rule R9). -/
theorem wordSubop_eq_subopOf (w : Word) : wordSubop w = subopOf (opcodeOf w) := by
  apply BitVec.eq_of_getLsbD_eq
  intro k hk
  simp only [wordSubop_eq, subopOf, opcodeOf_eq, BitVec.getLsbD_extractLsb', BitVec.getLsbD_setWidth]
  grind

section fields

variable (rs rt rd : RegIdx) (sh : BitVec 5) (fn op : BitVec 6) (imm : Imm16) (mid : BitVec 20)

@[simp] theorem opcodeOf_assembleI : opcodeOf (assembleI op rs rt imm) = op := by
  apply BitVec.eq_of_getLsbD_eq
  intro k hk
  simp only [opcodeOf_eq, assembleI, BitVec.getLsbD_extractLsb', BitVec.getLsbD_append]
  grind

@[simp] theorem rsOf_assembleI : rsOf (assembleI op rs rt imm) = rs := by
  rw [rsOf_eq, ← regOf_regField rs]
  congr 1
  apply BitVec.eq_of_getLsbD_eq
  intro k hk
  simp only [assembleI, regOf_regField, BitVec.getLsbD_extractLsb', BitVec.getLsbD_append]
  grind

@[simp] theorem rtOf_assembleI : rtOf (assembleI op rs rt imm) = rt := by
  rw [rtOf_eq, ← regOf_regField rt]
  congr 1
  apply BitVec.eq_of_getLsbD_eq
  intro k hk
  simp only [assembleI, regOf_regField, BitVec.getLsbD_extractLsb', BitVec.getLsbD_append]
  grind

@[simp] theorem immOf_assembleI : immOf (assembleI op rs rt imm) = imm := by
  apply BitVec.eq_of_getLsbD_eq
  intro k hk
  simp only [immOf_eq, assembleI, BitVec.getLsbD_extractLsb', BitVec.getLsbD_append]
  grind

@[simp] theorem opcodeOf_assembleR : opcodeOf (assembleR rs rt rd sh fn) = registerOpcode := by
  apply BitVec.eq_of_getLsbD_eq
  intro k hk
  simp only [opcodeOf_eq, assembleR, BitVec.getLsbD_extractLsb', BitVec.getLsbD_append]
  grind

@[simp] theorem rsOf_assembleR : rsOf (assembleR rs rt rd sh fn) = rs := by
  rw [rsOf_eq, ← regOf_regField rs]
  congr 1
  apply BitVec.eq_of_getLsbD_eq
  intro k hk
  simp only [assembleR, regOf_regField, BitVec.getLsbD_extractLsb', BitVec.getLsbD_append]
  grind

@[simp] theorem rtOf_assembleR : rtOf (assembleR rs rt rd sh fn) = rt := by
  rw [rtOf_eq, ← regOf_regField rt]
  congr 1
  apply BitVec.eq_of_getLsbD_eq
  intro k hk
  simp only [assembleR, regOf_regField, BitVec.getLsbD_extractLsb', BitVec.getLsbD_append]
  grind

@[simp] theorem rdOf_assembleR : rdOf (assembleR rs rt rd sh fn) = rd := by
  rw [rdOf_eq, ← regOf_regField rd]
  congr 1
  apply BitVec.eq_of_getLsbD_eq
  intro k hk
  simp only [assembleR, regOf_regField, BitVec.getLsbD_extractLsb', BitVec.getLsbD_append]
  grind

@[simp] theorem shamtOf_assembleR : shamtOf (assembleR rs rt rd sh fn) = sh := by
  apply BitVec.eq_of_getLsbD_eq
  intro k hk
  simp only [shamtOf_eq, assembleR, BitVec.getLsbD_extractLsb', BitVec.getLsbD_append]
  grind

@[simp] theorem functOf_assembleR : functOf (assembleR rs rt rd sh fn) = fn := by
  apply BitVec.eq_of_getLsbD_eq
  intro k hk
  simp only [functOf_eq, assembleR, BitVec.getLsbD_extractLsb', BitVec.getLsbD_append]
  grind

@[simp] theorem opcodeOf_assembleSyscall : opcodeOf (assembleSyscall mid) = registerOpcode := by
  apply BitVec.eq_of_getLsbD_eq
  intro k hk
  simp only [opcodeOf_eq, assembleSyscall, BitVec.getLsbD_extractLsb', BitVec.getLsbD_append]
  grind

@[simp] theorem functOf_assembleSyscall : functOf (assembleSyscall mid) = syscallFunct := by
  apply BitVec.eq_of_getLsbD_eq
  intro k hk
  simp only [functOf_eq, assembleSyscall, BitVec.getLsbD_extractLsb', BitVec.getLsbD_append]
  grind

@[simp] theorem middleOf_assembleSyscall : middleOf (assembleSyscall mid) = mid := by
  apply BitVec.eq_of_getLsbD_eq
  intro k hk
  simp only [middleOf_eq, assembleSyscall, BitVec.getLsbD_extractLsb', BitVec.getLsbD_append]
  grind

end fields

/-- A word is assembled from its I-layout fields (rule R67). -/
theorem assembleI_of_fields (w : Word) : assembleI (opcodeOf w) (rsOf w) (rtOf w) (immOf w) = w := by
  apply BitVec.eq_of_getLsbD_eq
  intro k hk
  simp only [assembleI, rsOf_eq, rtOf_eq, regField_regOf, opcodeOf_eq, immOf_eq, BitVec.getLsbD_extractLsb',
    BitVec.getLsbD_append]
  grind

/-- A word of opcode 0 is assembled from its R-layout fields (rule R67). -/
theorem assembleR_of_fields (w : Word) (h : opcodeOf w = registerOpcode) :
    assembleR (rsOf w) (rtOf w) (rdOf w) (shamtOf w) (functOf w) = w := by
  apply BitVec.eq_of_getLsbD_eq
  intro k hk
  simp only [assembleR, ← h, rsOf_eq, rtOf_eq, rdOf_eq, regField_regOf, opcodeOf_eq, shamtOf_eq, functOf_eq,
    BitVec.getLsbD_extractLsb', BitVec.getLsbD_append]
  grind

/-- A word of opcode 0 and function code 12 is assembled from its middle bits. -/
theorem assembleSyscall_of_fields (w : Word) (h : opcodeOf w = registerOpcode) (hf : functOf w = syscallFunct) :
    assembleSyscall (middleOf w) = w := by
  apply BitVec.eq_of_getLsbD_eq
  intro k hk
  simp only [assembleSyscall, ← h, ← hf, opcodeOf_eq, functOf_eq, middleOf_eq, BitVec.getLsbD_extractLsb',
    BitVec.getLsbD_append]
  grind

/-- The I-layout mask of the opcode table leaves the opcode field alone. -/
theorem opcodeOf_of_mask (w v : Word) (h : w &&& 0xFC000000 = v) : opcodeOf w = opcodeOf v := by
  subst h
  simp only [opcodeOf_eq, BitVec.extractLsb'_and]
  have hm : (0xFC000000 : Word).extractLsb' 26 6 = BitVec.allOnes 6 := by decide
  rw [hm, BitVec.and_allOnes]

/-- The R-layout mask of the opcode table leaves the opcode and function fields alone. -/
theorem codes_of_mask (w v : Word) (h : w &&& 0xFC00003F = v) :
    opcodeOf w = opcodeOf v ∧ functOf w = functOf v := by
  subst h
  simp only [opcodeOf_eq, functOf_eq, BitVec.extractLsb'_and]
  have hm : (0xFC00003F : Word).extractLsb' 26 6 = BitVec.allOnes 6 := by decide
  have hf : (0xFC00003F : Word).extractLsb' 0 6 = BitVec.allOnes 6 := by decide
  rw [hm, hf, BitVec.and_allOnes, BitVec.and_allOnes]
  exact ⟨rfl, rfl⟩

/-- A register-op word is an unknown function code exactly when its function code is none of the eleven. -/
theorem decodeRegister_unknown_iff (c : Codes) (w : Word) (u : Unknown) :
    decodeRegister c w = .unknown u ↔ u = .funct ∧ functOf w ∉ c.functs := by
  simp only [Codes.functs, List.mem_cons, List.not_mem_nil, not_or, or_false]
  unfold decodeRegister
  iterate 11
    split
    · rename_i h; simp [h]
  rename_i h11 h10 h9 h8 h7 h6 h5 h4 h3 h2 h1
  constructor
  · intro h
    cases h
    exact ⟨rfl, h11, h10, h9, h8, h7, h6, h5, h4, h3, h2, h1⟩
  · rintro ⟨rfl, -⟩
    rfl

/-- An opcode 0 word is dispatched by its function code (rule R72). -/
theorem decodeWith_register (c : Codes) (w : Word) (h : opcodeOf w = registerOpcode) :
    decodeWith c w = decodeRegister c w := by
  simp [decodeWith, classify, h]

end Sys2Proof
end

