-- ==== Sys2Proof/Laws/Memory.lean ====
section
/-! SUPPORT. What reading and writing memory do: a byte's write is read back, leaves every other byte alone and
keeps the canonical form; and the same of words. -/

namespace Sys2Proof

theorem Memory.byteAt_of_wfFrom_lt : ∀ (m : Memory) (lo k : Nat), Memory.wfFrom lo m = true → k < lo →
    m.byteAt k = Memory.blank
  | [], _, _, _, _ => rfl
  | (a, b) :: rest, lo, k, h, hk => by
    simp only [Memory.wfFrom, Bool.and_eq_true, decide_eq_true_eq] at h
    simp only [Memory.byteAt]
    rw [if_pos (by omega)]

theorem Memory.wfFrom_mono : ∀ (m : Memory) (lo lo' : Nat), lo' ≤ lo → Memory.wfFrom lo m = true →
    Memory.wfFrom lo' m = true
  | [], _, _, _, _ => rfl
  | (a, b) :: rest, lo, lo', hle, h => by
    simp only [Memory.wfFrom, Bool.and_eq_true, decide_eq_true_eq] at h ⊢
    exact ⟨⟨⟨by omega, h.1.1.2⟩, h.1.2⟩, h.2⟩

theorem Memory.byteAt_setByte_wfFrom : ∀ (m : Memory) (lo k j : Nat) (v : Byte), Memory.wfFrom lo m = true →
    (m.setByte k v).byteAt j = if j = k then v else m.byteAt j
  | [], lo, k, j, v, _ => by
    simp only [Memory.setByte]
    by_cases hv : v = Memory.blank
    · simp [hv, Memory.byteAt]
    · simp only [hv, if_false, Memory.byteAt]
      grind
  | (a, b) :: rest, lo, k, j, v, h => by
    simp only [Memory.wfFrom, Bool.and_eq_true, decide_eq_true_eq] at h
    have hrest := Memory.byteAt_of_wfFrom_lt rest (a + 1) j h.2
    have ih := Memory.byteAt_setByte_wfFrom rest (a + 1) k j v h.2
    simp only [Memory.setByte]
    by_cases hka : k < a
    · by_cases hv : v = Memory.blank
      · simp only [hka, hv, if_true, Memory.byteAt]; grind
      · simp only [hka, hv, if_true, if_false, Memory.byteAt]; grind
    · by_cases hk : k = a
      · subst hk
        by_cases hv : v = Memory.blank
        · simp only [Nat.lt_irrefl, hv, if_true, if_false, Memory.byteAt]; grind
        · simp only [Nat.lt_irrefl, hv, if_true, if_false, Memory.byteAt]; grind
      · simp only [hka, hk, if_false, Memory.byteAt, ih]; grind

/-- A write is read back, and every other byte reads as before. -/
theorem Memory.byteAt_setByte (m : Memory) (h : m.wf = true) (k j : Nat) (v : Byte) :
    (m.setByte k v).byteAt j = if j = k then v else m.byteAt j :=
  Memory.byteAt_setByte_wfFrom m 0 k j v h

theorem Memory.wfFrom_setByte : ∀ (m : Memory) (lo k : Nat) (v : Byte), Memory.wfFrom lo m = true → lo ≤ k →
    k < 2 ^ 32 → Memory.wfFrom lo (m.setByte k v) = true
  | [], lo, k, v, _, hlo, hk => by
    simp only [Memory.setByte]
    by_cases hv : v = Memory.blank
    · simp [hv, Memory.wfFrom]
    · simp [hv, Memory.wfFrom]; omega
  | (a, b) :: rest, lo, k, v, h, hlo, hk => by
    have hw := h
    simp only [Memory.wfFrom, Bool.and_eq_true, decide_eq_true_eq] at h
    simp only [Memory.setByte]
    by_cases hka : k < a
    · by_cases hv : v = Memory.blank
      · simpa only [hka, hv, if_true] using hw
      · simp only [hka, hv, if_true, if_false, Memory.wfFrom, Bool.and_eq_true, decide_eq_true_eq, bne_iff_ne,
          ne_eq, not_false_eq_true, and_true]
        exact ⟨⟨hlo, hk⟩, ⟨⟨by omega, h.1.1.2⟩, by simpa using h.1.2⟩, h.2⟩
    · by_cases hk' : k = a
      · by_cases hv : v = Memory.blank
        · simp only [hk', Nat.lt_irrefl, hv, if_true, if_false]
          exact Memory.wfFrom_mono rest (a + 1) lo (by omega) h.2
        · simp only [hk', Nat.lt_irrefl, hv, if_true, if_false, Memory.wfFrom, Bool.and_eq_true,
            decide_eq_true_eq, bne_iff_ne, ne_eq, not_false_eq_true, and_true]
          exact ⟨⟨h.1.1.1, h.1.1.2⟩, h.2⟩
      · have ih := Memory.wfFrom_setByte rest (a + 1) k v h.2 (by omega) hk
        simp only [hka, hk', if_false, Memory.wfFrom, Bool.and_eq_true, decide_eq_true_eq]
        exact ⟨h.1, ih⟩

/-- A byte's write keeps the canonical form. -/
theorem Memory.wf_setByte (m : Memory) (k : Nat) (v : Byte) (h : m.wf = true) (hk : k < 2 ^ 32) :
    (m.setByte k v).wf = true :=
  Memory.wfFrom_setByte m 0 k v h (Nat.zero_le _) hk

/-- A byte's write lists no address but its own that was not listed before. -/
theorem Memory.mem_setByte (m : Memory) (k : Nat) (v : Byte) (cell : Host.Cell) (h : cell ∈ m.setByte k v) :
    cell.1 = k ∨ cell ∈ m := by
  induction m with
  | nil =>
    simp only [Memory.setByte] at h
    split at h <;> simp_all
  | cons head rest ih =>
    obtain ⟨a, b⟩ := head
    simp only [Memory.setByte] at h
    grind

theorem byteAddr_lt (a : Word) (k : Nat) : byteAddr a k < 2 ^ 32 := (a + BitVec.ofNat 32 k).isLt

theorem byteAddr_eq (a : Word) (k : Nat) : byteAddr a k = (a.toNat + k) % 2 ^ 32 := by
  simp [byteAddr, BitVec.toNat_add]

/-- The four bytes of a word have four addresses. -/
theorem byteAddr_inj (a : Word) (j k : Nat) (hj : j < 4) (hk : k < 4) (h : byteAddr a j = byteAddr a k) : j = k := by
  rw [byteAddr_eq, byteAddr_eq] at h
  have := a.isLt
  omega

/-- A word's write keeps the canonical form. -/
theorem Memory.wf_setWord (o : ByteOrder) (m : Memory) (a v : Word) (h : m.wf = true) :
    (m.setWord o a v).wf = true :=
  Memory.wf_setByte _ _ _ (Memory.wf_setByte _ _ _ (Memory.wf_setByte _ _ _ (Memory.wf_setByte _ _ _ h
    (byteAddr_lt _ _)) (byteAddr_lt _ _)) (byteAddr_lt _ _)) (byteAddr_lt _ _)

/-- A word's write lists no address but its own four that was not listed before. -/
theorem Memory.mem_setWord (o : ByteOrder) (m : Memory) (a v : Word) (cell : Host.Cell)
    (h : cell ∈ m.setWord o a v) : (∃ k, k < 4 ∧ cell.1 = byteAddr a k) ∨ cell ∈ m := by
  rcases Memory.mem_setByte _ _ _ _ h with h3 | h
  · exact .inl ⟨3, by omega, h3⟩
  rcases Memory.mem_setByte _ _ _ _ h with h2 | h
  · exact .inl ⟨2, by omega, h2⟩
  rcases Memory.mem_setByte _ _ _ _ h with h1 | h
  · exact .inl ⟨1, by omega, h1⟩
  rcases Memory.mem_setByte _ _ _ _ h with h0 | h
  · exact .inl ⟨0, by omega, h0⟩
  exact .inr h

/-- The byte at any address after a word's write. -/
theorem Memory.byteAt_setWord (o : ByteOrder) (m : Memory) (h : m.wf = true) (a v : Word) (j : Nat) :
    (m.setWord o a v).byteAt j =
      if j = byteAddr a 3 then byteOfWord o v 3
      else if j = byteAddr a 2 then byteOfWord o v 2
      else if j = byteAddr a 1 then byteOfWord o v 1
      else if j = byteAddr a 0 then byteOfWord o v 0
      else m.byteAt j := by
  have h0 := Memory.wf_setByte m (byteAddr a 0) (byteOfWord o v 0) h (byteAddr_lt _ _)
  have h1 := Memory.wf_setByte _ (byteAddr a 1) (byteOfWord o v 1) h0 (byteAddr_lt _ _)
  have h2 := Memory.wf_setByte _ (byteAddr a 2) (byteOfWord o v 2) h1 (byteAddr_lt _ _)
  unfold Memory.setWord
  rw [Memory.byteAt_setByte _ h2, Memory.byteAt_setByte _ h1, Memory.byteAt_setByte _ h0, Memory.byteAt_setByte _ h]

/-- Bytes outside the word read as before. -/
theorem Memory.byteAt_setWord_outside (o : ByteOrder) (m : Memory) (h : m.wf = true) (a v : Word) (j : Nat)
    (hj : ∀ k, k < 4 → j ≠ byteAddr a k) : (m.setWord o a v).byteAt j = m.byteAt j := by
  rw [Memory.byteAt_setWord o m h, if_neg (hj 3 (by omega)), if_neg (hj 2 (by omega)), if_neg (hj 1 (by omega)),
    if_neg (hj 0 (by omega))]

/-- The word's own bytes are those of the value written. -/
theorem Memory.byteAt_setWord_inside (o : ByteOrder) (m : Memory) (h : m.wf = true) (a v : Word) (k : Nat)
    (hk : k < 4) : (m.setWord o a v).byteAt (byteAddr a k) = byteOfWord o v k := by
  rw [Memory.byteAt_setWord o m h]
  have hne : ∀ j, j < 4 → byteAddr a k = byteAddr a j → k = j := fun j hj => byteAddr_inj a k j hk hj
  have h3 := hne 3 (by omega)
  have h2 := hne 2 (by omega)
  have h1 := hne 1 (by omega)
  have h0 := hne 0 (by omega)
  grind

/-- The bytes of a word, put together in the same order, are the word. -/
theorem wordOfBytes_byteOfWord (o : ByteOrder) (v : Word) :
    wordOfBytes o (byteOfWord o v 0) (byteOfWord o v 1) (byteOfWord o v 2) (byteOfWord o v 3) = v := by
  apply BitVec.eq_of_getLsbD_eq
  intro k hk
  cases o <;>
  · simp only [wordOfBytes, byteOfWord, BitVec.getLsbD_append, BitVec.getLsbD_extractLsb']
    grind

/-- A word's write is read back, aligned or not (rule R43). -/
theorem Memory.wordAt_setWord (o : ByteOrder) (m : Memory) (h : m.wf = true) (a v : Word) :
    (m.setWord o a v).wordAt o a = v := by
  unfold Memory.wordAt
  rw [Memory.byteAt_setWord_inside o m h a v 0 (by omega), Memory.byteAt_setWord_inside o m h a v 1 (by omega),
    Memory.byteAt_setWord_inside o m h a v 2 (by omega), Memory.byteAt_setWord_inside o m h a v 3 (by omega),
    wordOfBytes_byteOfWord]

/-- Memories that read the same byte by byte give the same words. -/
theorem Memory.wordAt_congr (o : ByteOrder) (m m' : Memory) (h : ∀ k, m'.byteAt k = m.byteAt k) (a : Word) :
    m'.wordAt o a = m.wordAt o a := by
  simp only [Memory.wordAt, h]

end Sys2Proof
end

