-- ==== Sys2Proof/Laws/ProgramCounter.lean ====
section
/-! SUPPORT. The program counter by value: what it holds of an address and its advance, modulo 2^PC_WIDTH, and
both at the spec's width. -/

namespace Sys2Proof

variable (c : Config) (p : Word)

theorem Config.toNat_fitPc : (c.fitPc p).toNat = p.toNat % 2 ^ c.pcWidth.val := by
  simp only [Config.fitPc, BitVec.toNat_ofNat]
  exact Nat.mod_eq_of_lt (lt_of_le_of_lt (Nat.mod_le _ _) p.isLt)

theorem Config.toNat_fitPc_lt : (c.fitPc p).toNat < 2 ^ c.pcWidth.val := by
  rw [c.toNat_fitPc]
  exact Nat.mod_lt _ (Nat.two_pow_pos _)

/-- An address that fits is held as it is. -/
theorem Config.fitPc_of_lt (h : p.toNat < 2 ^ c.pcWidth.val) : c.fitPc p = p :=
  BitVec.eq_of_toNat_eq (by rw [c.toNat_fitPc, Nat.mod_eq_of_lt h])

/-- At width 32 every address fits. -/
theorem Config.fitPc_of_width32 (h : c.pcWidth = 32) : c.fitPc p = p :=
  c.fitPc_of_lt p (by rw [h]; exact p.isLt)

theorem Config.toNat_nextPc : (c.nextPc p).toNat = (p.toNat + 4) % 2 ^ c.pcWidth.val := by
  have hd : 2 ^ c.pcWidth.val ∣ 2 ^ 32 := Nat.pow_dvd_pow 2 (Nat.le_of_lt_succ c.pcWidth.isLt)
  rw [Config.nextPc, c.toNat_fitPc, BitVec.toNat_add, Nat.mod_mod_of_dvd _ hd]
  rfl

theorem Config.toNat_nextPc_lt : (c.nextPc p).toNat < 2 ^ c.pcWidth.val := c.toNat_fitPc_lt _

/-- At width 32 the advance is the word addition of rule R14. -/
theorem Config.nextPc_of_width32 (h : c.pcWidth = 32) : c.nextPc p = p + 4 := c.fitPc_of_width32 _ h

end Sys2Proof
end

