-- ==== Sys2Proof/Laws/State.lean ====
section
/-! SUPPORT. One lemma per field per update of State, true by rfl, so that no proof unfolds a record update. -/

namespace Sys2Proof.Machine

section fields

variable (s : State) (i j : RegIdx) (v : Word) (d : Diag)

@[simp] theorem State.setNext_current : (s.setNext i v).current = s.current := rfl
@[simp] theorem State.setNext_next_regs : (s.setNext i v).next.regs = s.next.regs.set i v := rfl
@[simp] theorem State.setNext_next_pc : (s.setNext i v).next.pc = s.next.pc := rfl
@[simp] theorem State.setNext_run : (s.setNext i v).run = s.run := rfl
@[simp] theorem State.setNext_mem : (s.setNext i v).mem = s.mem := rfl
@[simp] theorem State.setNext_diag : (s.setNext i v).diag = s.diag := rfl
@[simp] theorem State.setNext_cfg : (s.setNext i v).cfg = s.cfg := rfl

@[simp] theorem State.report_current : (s.report d).current = s.current := rfl
@[simp] theorem State.report_next : (s.report d).next = s.next := rfl
@[simp] theorem State.report_run : (s.report d).run = s.run := rfl
@[simp] theorem State.report_mem : (s.report d).mem = s.mem := rfl
@[simp] theorem State.report_diag : (s.report d).diag = d := rfl
@[simp] theorem State.report_cfg : (s.report d).cfg = s.cfg := rfl

@[simp] theorem State.clearRun_current : s.clearRun.current = s.current := rfl
@[simp] theorem State.clearRun_next : s.clearRun.next = s.next := rfl
@[simp] theorem State.clearRun_run : s.clearRun.run = false := rfl
@[simp] theorem State.clearRun_mem : s.clearRun.mem = s.mem := rfl
@[simp] theorem State.clearRun_diag : s.clearRun.diag = s.diag := rfl
@[simp] theorem State.clearRun_cfg : s.clearRun.cfg = s.cfg := rfl

@[simp] theorem State.beginCycle_current : s.beginCycle.current = s.current := rfl
@[simp] theorem State.beginCycle_next_regs : s.beginCycle.next.regs = s.current.regs := rfl
@[simp] theorem State.beginCycle_next_pc : s.beginCycle.next.pc = s.cfg.nextPc s.current.pc := rfl
@[simp] theorem State.beginCycle_run : s.beginCycle.run = s.run := rfl
@[simp] theorem State.beginCycle_mem : s.beginCycle.mem = s.mem := rfl
@[simp] theorem State.beginCycle_diag : s.beginCycle.diag = .none := rfl
@[simp] theorem State.beginCycle_cfg : s.beginCycle.cfg = s.cfg := rfl

@[simp] theorem State.commit_current : s.commit.current = s.next := rfl
@[simp] theorem State.commit_next : s.commit.next = s.next := rfl
@[simp] theorem State.commit_run : s.commit.run = s.run := rfl
@[simp] theorem State.commit_mem : s.commit.mem = s.mem := rfl
@[simp] theorem State.commit_diag : s.commit.diag = s.diag := rfl
@[simp] theorem State.commit_cfg : s.commit.cfg = s.cfg := rfl

@[simp] theorem State.reg_beginCycle : s.beginCycle.reg i = s.reg i := rfl
@[simp] theorem State.reg_setNext : (s.setNext i v).reg j = s.reg j := rfl
@[simp] theorem State.reg_commit : s.commit.reg i = s.next.regs[i] := rfl
@[simp] theorem State.reg_report : (s.report d).reg i = s.reg i := rfl
@[simp] theorem State.reg_clearRun : s.clearRun.reg i = s.reg i := rfl
@[simp] theorem State.address_beginCycle (imm : Imm16) : s.beginCycle.address i imm = s.address i imm := rfl

@[simp] theorem State.checkAccess_beginCycle (k : Access) (a : Word) : s.beginCycle.checkAccess k a = s.checkAccess k a := rfl
@[simp] theorem State.memRead_beginCycle (k : Access) (a : Word) : s.beginCycle.memRead k a = s.memRead k a := rfl

@[simp] theorem State.resetOf_current (c : Config) : (State.resetOf c).current = ⟨c.resetRegs, c.fitPc c.resetPc⟩ := rfl
@[simp] theorem State.resetOf_next (c : Config) : (State.resetOf c).next = ⟨c.resetRegs, c.fitPc c.resetPc⟩ := rfl
@[simp] theorem State.resetOf_run (c : Config) : (State.resetOf c).run = c.resetRun := rfl
@[simp] theorem State.resetOf_mem (c : Config) : (State.resetOf c).mem = c.image := rfl
@[simp] theorem State.resetOf_diag (c : Config) : (State.resetOf c).diag = .none := rfl
@[simp] theorem State.resetOf_cfg (c : Config) : (State.resetOf c).cfg = c := rfl

@[simp] theorem State.placeWord_current : (s.placeWord v).current = s.current := rfl
@[simp] theorem State.placeWord_next : (s.placeWord v).next = s.next := rfl
@[simp] theorem State.placeWord_run : (s.placeWord v).run = true := rfl
@[simp] theorem State.placeWord_mem :
    (s.placeWord v).mem = s.mem.setWord s.cfg.byteOrder s.current.pc v := rfl
@[simp] theorem State.placeWord_diag : (s.placeWord v).diag = s.diag := rfl
@[simp] theorem State.placeWord_cfg : (s.placeWord v).cfg = s.cfg.admitting s.current.pc := rfl

end fields

/-- The register file after one write. -/
theorem regs_set (regs : Vector Word 32) (i j : RegIdx) (v : Word) :
    (regs.set i v)[j] = if i = j then v else regs[j] := by
  simp only [Fin.getElem_fin, Vector.getElem_set, Fin.ext_iff]

end Sys2Proof.Machine
end

