-- ==== Sys2Proof/Laws/Ops.lean ====
section
/-! SUPPORT. What each shared operation can do, said once: when an access is admitted, what a read and a write
answer, and what a cycle around each shared handler leaves. The proofs about instructions cite these. -/

namespace Sys2Proof.Machine

/-- An access is admitted exactly where `State.admits` says so. -/
theorem State.checkAccess_ok_iff (s : State) (k : Access) (a : Word) : s.checkAccess k a = .ok () ↔ s.admits a := by
  unfold State.checkAccess State.admits
  grind

/-- An access that is not admitted stops with a fault. -/
theorem State.checkAccess_error_of_not (s : State) (k : Access) (a : Word) (h : ¬ s.admits a) :
    ∃ f, s.checkAccess k a = .error f := by
  cases hk : s.checkAccess k a with
  | ok u => exact absurd ((s.checkAccess_ok_iff k a).1 hk) h
  | error f => exact ⟨f, rfl⟩

/-- A read of an admitted address answers the word there. -/
theorem State.memRead_of_admits (s : State) (k : Access) (a : Word) (h : s.admits a) :
    s.memRead k a = .ok (s.wordAt a) := by
  unfold State.memRead
  rw [(s.checkAccess_ok_iff k a).2 h]
  rfl

/-- A read that answers was of an admitted address, and answers the word there. -/
theorem State.memRead_ok (s : State) (k : Access) (a w : Word) (h : s.memRead k a = .ok w) :
    s.admits a ∧ w = s.wordAt a := by
  by_cases ha : s.admits a
  · rw [s.memRead_of_admits k a ha] at h
    exact ⟨ha, by simpa using h.symm⟩
  · obtain ⟨f, hf⟩ := s.checkAccess_error_of_not k a ha
    simp [State.memRead, hf] at h

/-- A read of an address that is not admitted stops. -/
theorem State.memRead_of_not (s : State) (k : Access) (a : Word) (h : ¬ s.admits a) :
    ∃ f, s.memRead k a = .error f := by
  obtain ⟨f, hf⟩ := s.checkAccess_error_of_not k a h
  exact ⟨f, by simp [State.memRead, hf]⟩

/-- A write to an admitted address replaces the word there. -/
theorem State.memWrite_of_admits (s : State) (a v : Word) (h : s.admits a) :
    s.memWrite a v = .ok { s with mem := s.mem.setWord s.cfg.byteOrder a v } := by
  unfold State.memWrite
  rw [(s.checkAccess_ok_iff .store a).2 h]

/-- A write that answers was to an admitted address, and replaced the word there. -/
theorem State.memWrite_ok (s t : State) (a v : Word) (h : s.memWrite a v = .ok t) :
    s.admits a ∧ t = { s with mem := s.mem.setWord s.cfg.byteOrder a v } := by
  by_cases ha : s.admits a
  · rw [s.memWrite_of_admits a v ha] at h
    exact ⟨ha, by simpa using h.symm⟩
  · obtain ⟨f, hf⟩ := s.checkAccess_error_of_not .store a ha
    simp [State.memWrite, hf] at h

/-- A write to an address that is not admitted stops. -/
theorem State.memWrite_of_not (s : State) (a v : Word) (h : ¬ s.admits a) : ∃ f, s.memWrite a v = .error f := by
  obtain ⟨f, hf⟩ := s.checkAccess_error_of_not .store a h
  exact ⟨f, by simp [State.memWrite, hf]⟩

@[simp] theorem State.admits_beginCycle (s : State) (a : Word) : s.beginCycle.admits a ↔ s.admits a := Iff.rfl

/-- A cycle answers next exactly where its handler answers, with the commit of what the handler leaves. -/
theorem runCycle_next_iff (s t : State) (handler : State → Except Fault State) :
    runCycle s handler = .next t ↔ ∃ n, handler s.beginCycle = .ok n ∧ t = n.commit := by
  unfold runCycle
  cases handler s.beginCycle <;> simp [eq_comm]

/-- A cycle is never refused. -/
theorem runCycle_not_refused (s : State) (handler : State → Except Fault State) (r : Refusal) :
    runCycle s handler ≠ .refused r := by
  unfold runCycle
  cases handler s.beginCycle <;> simp

/-- The state a cycle leaves that writes `v` to register `d`. -/
def State.wrote (s : State) (d : RegIdx) (v : Word) : State := (s.beginCycle.setNext d v).commit

/-- The state a cycle leaves that only reports. -/
def State.reported (s : State) (d : Diag) : State := (s.beginCycle.report d).commit

/-- The state a word store leaves. -/
def State.stored (s : State) (a v : Word) : State :=
  { s.beginCycle.commit with mem := s.mem.setWord s.cfg.byteOrder a v }

/-- Every cycle leaves the advance of `beginCycle`, committed. -/
theorem advances_of_next {s t : State} (pc : t.current.pc = s.cfg.nextPc s.current.pc) (committed : t.next = t.current)
    (cfg : t.cfg = s.cfg) : Advances s t where
  pc := fun h => by rw [pc, s.cfg.nextPc_of_width32 _ h]
  committed := committed
  cfg := cfg

theorem State.wrote_spec (s : State) (d : RegIdx) (v : Word) : WritesRegister s (s.wrote d v) d v where
  toAdvances := advances_of_next rfl rfl rfl
  value := by simp [State.wrote]
  others := fun r hr => by
    simp only [State.wrote, State.reg_commit, State.setNext_next_regs, regs_set, if_neg hr.symm]
    rfl
  run := rfl
  memory := fun _ => rfl
  diag := rfl

theorem State.reported_spec (s : State) (d : Diag) : OnlyReports s (s.reported d) d where
  toAdvances := advances_of_next rfl rfl rfl
  registers := fun _ => rfl
  run := rfl
  memory := fun _ => rfl
  diag := rfl

theorem runCycle_aluInto (s : State) (d : RegIdx) (op : AluOp) (a b : State → Word) :
    runCycle s (aluInto d op a b) = .next (s.wrote d (alu op (a s.beginCycle) (b s.beginCycle))) := rfl

theorem runCycle_registerAlu (s : State) (op : AluOp) (rd rs rt : RegIdx) :
    runCycle s (registerAlu op rd rs rt) = .next (s.wrote rd (alu op (s.reg rs) (s.reg rt))) := rfl

theorem runCycle_signedImmediateAlu (s : State) (op : AluOp) (rt rs : RegIdx) (imm : Imm16) :
    runCycle s (signedImmediateAlu op rt rs imm) = .next (s.wrote rt (alu op (s.reg rs) (sext32 imm))) := rfl

theorem runCycle_zeroImmediateAlu (s : State) (op : AluOp) (rt rs : RegIdx) (imm : Imm16) :
    runCycle s (zeroImmediateAlu op rt rs imm) = .next (s.wrote rt (alu op (s.reg rs) (zext32 imm))) := rfl

theorem runCycle_reportOnly (s : State) (d : Diag) : runCycle s (reportOnly d) = .next (s.reported d) := rfl

/-- The word load, everything it can do. -/
theorem runCycle_loadWord (s : State) (rt : RegIdx) (imm : Imm16) (rs : RegIdx) :
    (s.admits (s.address rs imm) ∧ runCycle s (loadWord rt imm rs) = .next (s.wrote rt (s.wordAt (s.address rs imm)))) ∨
    (¬ s.admits (s.address rs imm) ∧ ∃ f, runCycle s (loadWord rt imm rs) = .fault f) := by
  by_cases h : s.admits (s.address rs imm)
  · refine .inl ⟨h, ?_⟩
    simp only [runCycle, loadWord, State.memRead_beginCycle, State.address_beginCycle, s.memRead_of_admits .load _ h]
    rfl
  · obtain ⟨f, hf⟩ := s.memRead_of_not .load _ h
    exact .inr ⟨h, f, by simp [runCycle, loadWord, hf]⟩

/-- The discarded load, everything it can do. -/
theorem runCycle_discardLoad (s : State) (imm : Imm16) (rs : RegIdx) :
    (s.admits (s.address rs imm) ∧ runCycle s (discardLoad imm rs) = .next (s.reported .unknownLoadSubop)) ∨
    (¬ s.admits (s.address rs imm) ∧ ∃ f, runCycle s (discardLoad imm rs) = .fault f) := by
  by_cases h : s.admits (s.address rs imm)
  · refine .inl ⟨h, ?_⟩
    simp only [runCycle, discardLoad, State.memRead_beginCycle, State.address_beginCycle, s.memRead_of_admits .load _ h]
    rfl
  · obtain ⟨f, hf⟩ := s.memRead_of_not .load _ h
    exact .inr ⟨h, f, by simp [runCycle, discardLoad, hf]⟩

/-- The word store, everything it can do. -/
theorem runCycle_storeWord (s : State) (rt : RegIdx) (imm : Imm16) (rs : RegIdx) :
    (s.admits (s.address rs imm) ∧ runCycle s (storeWord rt imm rs) = .next (s.stored (s.address rs imm) (s.reg rt))) ∨
    (¬ s.admits (s.address rs imm) ∧ ∃ f, runCycle s (storeWord rt imm rs) = .fault f) := by
  by_cases h : s.admits (s.address rs imm)
  · refine .inl ⟨h, ?_⟩
    simp only [runCycle, storeWord, State.address_beginCycle, State.reg_beginCycle,
      s.beginCycle.memWrite_of_admits _ _ ((s.admits_beginCycle _).2 h)]
    rfl
  · obtain ⟨f, hf⟩ := s.beginCycle.memWrite_of_not (s.address rs imm) (s.reg rt) (mt (s.admits_beginCycle _).1 h)
    exact .inr ⟨h, f, by simp [runCycle, storeWord, hf]⟩

/-- The system call, everything it can do. -/
theorem runCycle_exitIfAsked (s : State) :
    (s.reg 2 = 10 ∧ runCycle s exitIfAsked = .next s.beginCycle.clearRun.commit) ∨
    (s.reg 2 ≠ 10 ∧ runCycle s exitIfAsked = .next s.beginCycle.commit) := by
  by_cases h : s.reg 2 = 10
  · have h' : s.beginCycle.reg exitRegister = exitRequest := h
    exact .inl ⟨h, by simp only [runCycle, exitIfAsked, if_pos h']⟩
  · have h' : ¬ s.beginCycle.reg exitRegister = exitRequest := h
    exact .inr ⟨h, by simp only [runCycle, exitIfAsked, if_neg h']⟩

end Sys2Proof.Machine
end

