-- ==== Sys2Proof/Laws/PerInstr.lean ====
section
/-! SUPPORT. The family TableRow: the word of every instruction lies in its row of the opcode table, the match and mask
values copied from opcode_table.json and not from `Codes.mipsI`. -/

namespace Sys2Proof

/-- The mask of the instruction's row. -/
def rowMask : Instr → Word
  | .add _ _ _ _ | .addu _ _ _ _ | .sub _ _ _ _ | .subu _ _ _ _ | .and _ _ _ _ | .or _ _ _ _
  | .xor _ _ _ _ | .nor _ _ _ _ | .slt _ _ _ _ | .sltu _ _ _ _ | .syscall _ => 0xFC00003F
  | .addi _ _ _ | .addiu _ _ _ | .slti _ _ _ | .sltiu _ _ _ | .andi _ _ _ | .ori _ _ _ | .xori _ _ _
  | .lui _ _ _ | .lb _ _ _ | .lh _ _ _ | .lw _ _ _ | .lbu _ _ _ | .lhu _ _ _ | .sb _ _ _ | .sh _ _ _
  | .sw _ _ _ => 0xFC000000

/-- The match value of the instruction's row. -/
def rowMatch : Instr → Word
  | .add _ _ _ _ => 0x00000020
  | .addu _ _ _ _ => 0x00000021
  | .sub _ _ _ _ => 0x00000022
  | .subu _ _ _ _ => 0x00000023
  | .and _ _ _ _ => 0x00000024
  | .or _ _ _ _ => 0x00000025
  | .xor _ _ _ _ => 0x00000026
  | .nor _ _ _ _ => 0x00000027
  | .slt _ _ _ _ => 0x0000002A
  | .sltu _ _ _ _ => 0x0000002B
  | .syscall _ => 0x0000000C
  | .addi _ _ _ => 0x20000000
  | .addiu _ _ _ => 0x24000000
  | .slti _ _ _ => 0x28000000
  | .sltiu _ _ _ => 0x2C000000
  | .andi _ _ _ => 0x30000000
  | .ori _ _ _ => 0x34000000
  | .xori _ _ _ => 0x38000000
  | .lui _ _ _ => 0x3C000000
  | .lb _ _ _ => 0x80000000
  | .lh _ _ _ => 0x84000000
  | .lw _ _ _ => 0x8C000000
  | .lbu _ _ _ => 0x90000000
  | .lhu _ _ _ => 0x94000000
  | .sb _ _ _ => 0xA0000000
  | .sh _ _ _ => 0xA4000000
  | .sw _ _ _ => 0xAC000000

/-- The I-layout mask keeps the opcode. -/
theorem mask_assembleI (op : BitVec 6) (rs rt : RegIdx) (imm : Imm16) :
    assembleI op rs rt imm &&& 0xFC000000 = op ++ (0 : BitVec 26) := by
  have hm : (0xFC000000 : Word) = BitVec.allOnes 6 ++ (0 : BitVec 26) := by decide
  apply BitVec.eq_of_getLsbD_eq
  intro k hk
  rw [hm]
  simp only [assembleI, BitVec.getLsbD_and, BitVec.getLsbD_append, BitVec.getLsbD_allOnes]
  grind

/-- The R-layout mask keeps the opcode and the function code. -/
theorem mask_assembleR (rs rt rd : RegIdx) (sh : BitVec 5) (fn : BitVec 6) :
    assembleR rs rt rd sh fn &&& 0xFC00003F = registerOpcode ++ (0 : BitVec 20) ++ fn := by
  have hm : (0xFC00003F : Word) = BitVec.allOnes 6 ++ (0 : BitVec 20) ++ BitVec.allOnes 6 := by decide
  apply BitVec.eq_of_getLsbD_eq
  intro k hk
  rw [hm]
  simp only [assembleR, BitVec.getLsbD_and, BitVec.getLsbD_append, BitVec.getLsbD_allOnes]
  grind

/-- The same of a `syscall` word. -/
theorem mask_assembleSyscall (mid : BitVec 20) :
    assembleSyscall mid &&& 0xFC00003F = registerOpcode ++ (0 : BitVec 20) ++ syscallFunct := by
  have hm : (0xFC00003F : Word) = BitVec.allOnes 6 ++ (0 : BitVec 20) ++ BitVec.allOnes 6 := by decide
  apply BitVec.eq_of_getLsbD_eq
  intro k hk
  rw [hm]
  simp only [assembleSyscall, BitVec.getLsbD_and, BitVec.getLsbD_append, BitVec.getLsbD_allOnes]
  grind

namespace Laws.TableRow

/-- The instruction's word, masked, is its row's match value. -/
def Statement (i : Instr) : Prop := encode i &&& rowMask i = rowMatch i

theorem add (rd rs rt : RegIdx) (sh : BitVec 5) : Statement (.add rd rs rt sh) := mask_assembleR rs rt rd sh _
theorem addu (rd rs rt : RegIdx) (sh : BitVec 5) : Statement (.addu rd rs rt sh) := mask_assembleR rs rt rd sh _
theorem sub (rd rs rt : RegIdx) (sh : BitVec 5) : Statement (.sub rd rs rt sh) := mask_assembleR rs rt rd sh _
theorem subu (rd rs rt : RegIdx) (sh : BitVec 5) : Statement (.subu rd rs rt sh) := mask_assembleR rs rt rd sh _
theorem and (rd rs rt : RegIdx) (sh : BitVec 5) : Statement (.and rd rs rt sh) := mask_assembleR rs rt rd sh _
theorem or (rd rs rt : RegIdx) (sh : BitVec 5) : Statement (.or rd rs rt sh) := mask_assembleR rs rt rd sh _
theorem xor (rd rs rt : RegIdx) (sh : BitVec 5) : Statement (.xor rd rs rt sh) := mask_assembleR rs rt rd sh _
theorem nor (rd rs rt : RegIdx) (sh : BitVec 5) : Statement (.nor rd rs rt sh) := mask_assembleR rs rt rd sh _
theorem slt (rd rs rt : RegIdx) (sh : BitVec 5) : Statement (.slt rd rs rt sh) := mask_assembleR rs rt rd sh _
theorem sltu (rd rs rt : RegIdx) (sh : BitVec 5) : Statement (.sltu rd rs rt sh) := mask_assembleR rs rt rd sh _
theorem syscall (mid : BitVec 20) : Statement (.syscall mid) := mask_assembleSyscall mid
theorem addi (rt rs : RegIdx) (imm : Imm16) : Statement (.addi rt rs imm) := mask_assembleI _ rs rt imm
theorem addiu (rt rs : RegIdx) (imm : Imm16) : Statement (.addiu rt rs imm) := mask_assembleI _ rs rt imm
theorem slti (rt rs : RegIdx) (imm : Imm16) : Statement (.slti rt rs imm) := mask_assembleI _ rs rt imm
theorem sltiu (rt rs : RegIdx) (imm : Imm16) : Statement (.sltiu rt rs imm) := mask_assembleI _ rs rt imm
theorem andi (rt rs : RegIdx) (imm : Imm16) : Statement (.andi rt rs imm) := mask_assembleI _ rs rt imm
theorem ori (rt rs : RegIdx) (imm : Imm16) : Statement (.ori rt rs imm) := mask_assembleI _ rs rt imm
theorem xori (rt rs : RegIdx) (imm : Imm16) : Statement (.xori rt rs imm) := mask_assembleI _ rs rt imm
theorem lui (rt : RegIdx) (imm : Imm16) (rs : RegIdx) : Statement (.lui rt imm rs) := mask_assembleI _ rs rt imm
theorem lb (rt : RegIdx) (imm : Imm16) (rs : RegIdx) : Statement (.lb rt imm rs) := mask_assembleI _ rs rt imm
theorem lh (rt : RegIdx) (imm : Imm16) (rs : RegIdx) : Statement (.lh rt imm rs) := mask_assembleI _ rs rt imm
theorem lw (rt : RegIdx) (imm : Imm16) (rs : RegIdx) : Statement (.lw rt imm rs) := mask_assembleI _ rs rt imm
theorem lbu (rt : RegIdx) (imm : Imm16) (rs : RegIdx) : Statement (.lbu rt imm rs) := mask_assembleI _ rs rt imm
theorem lhu (rt : RegIdx) (imm : Imm16) (rs : RegIdx) : Statement (.lhu rt imm rs) := mask_assembleI _ rs rt imm
theorem sb (rt : RegIdx) (imm : Imm16) (rs : RegIdx) : Statement (.sb rt imm rs) := mask_assembleI _ rs rt imm
theorem sh (rt : RegIdx) (imm : Imm16) (rs : RegIdx) : Statement (.sh rt imm rs) := mask_assembleI _ rs rt imm
theorem sw (rt : RegIdx) (imm : Imm16) (rs : RegIdx) : Statement (.sw rt imm rs) := mask_assembleI _ rs rt imm

end Laws.TableRow

end Sys2Proof
end

