-- ==== Sys2Proof/Laws/Step.lean ====
section
/-! SUPPORT. Everything a step can do, said once (`execute_effect`, `step_running`, `step_ended`): each proof about all
words cites the five cases below and unfolds no meaning. -/

namespace Sys2Proof.Machine

/-- The data access a word makes, if it makes one, is admitted. -/
def AccessAdmitted (s : State) (d : Decoded) : Prop :=
  ∀ p, dataAccess d = some p → s.admits (s.reg p.1 + p.2.signExtend 32)

/-- The word is a `syscall` that asks for exit. -/
def AsksExit (s : State) (d : Decoded) : Prop := (∃ g, d = .instr (.syscall g)) ∧ s.reg 2 = 10

/-- The word is a word store. -/
def IsStoreWord (d : Decoded) : Prop := ∃ rt imm rs, d = .instr (.sw rt imm rs)

/-- The word may write a register: it is an ALU instruction or the word load. -/
def mayWrite : Decoded → Bool
  | .instr (.syscall _) => false
  | .instr (.lb _ _ _) => false
  | .instr (.lh _ _ _) => false
  | .instr (.lbu _ _ _) => false
  | .instr (.lhu _ _ _) => false
  | .instr (.sb _ _ _) => false
  | .instr (.sh _ _ _) => false
  | .instr (.sw _ _ _) => false
  | .instr _ => true
  | .unknown _ => false

/-- What executing a word can come to: a register written, a report, the exit, a word stored, or no step because the
data access is not admitted. -/
inductive Effect (s : State) (d : Decoded) : Host.Outcome State Fault Refusal → Prop where
  | wrote (r : RegIdx) (v : Word) (ok : AccessAdmitted s d) (stays : ¬ AsksExit s d) (noStore : ¬ IsStoreWord d)
      (writes : mayWrite d = true) : Effect s d (.next (s.wrote r v))
  | reported (k : Diag) (ok : AccessAdmitted s d) (stays : ¬ AsksExit s d) (noStore : ¬ IsStoreWord d) :
      Effect s d (.next (s.reported k))
  | exited (asks : AsksExit s d) : Effect s d (.next s.beginCycle.clearRun.commit)
  | stored (a v : Word) (rt : RegIdx) (imm : Imm16) (rs : RegIdx) (isStore : d = .instr (.sw rt imm rs))
      (ha : a = s.reg rs + imm.signExtend 32) (hv : v = s.reg rt) (ok : s.admits a) : Effect s d (.next (s.stored a v))
  | stuck (f : Fault) (rs : RegIdx) (imm : Imm16) (access : dataAccess d = some (rs, imm))
      (refused : ¬ s.admits (s.reg rs + imm.signExtend 32)) : Effect s d (.fault f)

/-- A meaning that writes a register and makes no access. -/
theorem effect_of_wrote {s : State} {d : Decoded} {o : Host.Outcome State Fault Refusal} {r : RegIdx} {v : Word}
    (h : o = .next (s.wrote r v)) (hacc : dataAccess d = none) (hw : mayWrite d = true) : Effect s d o := by
  subst h
  refine .wrote r v (fun p hp => ?_) (fun hx => ?_) (fun hx => ?_) hw
  · rw [hacc] at hp; cases hp
  · obtain ⟨⟨g, rfl⟩, -⟩ := hx; simp [mayWrite] at hw
  · obtain ⟨rt, imm, rs, rfl⟩ := hx; simp [mayWrite] at hw

/-- A meaning that only reports and makes no access. -/
theorem effect_of_reported {s : State} {d : Decoded} {o : Host.Outcome State Fault Refusal} {k : Diag}
    (h : o = .next (s.reported k)) (hacc : dataAccess d = none) (hx : ¬ AsksExit s d) : Effect s d o := by
  subst h
  refine .reported k (fun p hp => ?_) hx (fun hst => ?_)
  · rw [hacc] at hp; cases hp
  · obtain ⟨rt, imm, rs, rfl⟩ := hst; simp [dataAccess] at hacc

/-- A meaning that is the discarded read. -/
theorem effect_of_discardLoad {s : State} {d : Decoded} {imm : Imm16} {rs : RegIdx}
    (hacc : dataAccess d = some (rs, imm)) (hx : ¬ AsksExit s d) (hst : ¬ IsStoreWord d) :
    Effect s d (runCycle s (discardLoad imm rs)) := by
  rcases runCycle_discardLoad s imm rs with ⟨hok, h⟩ | ⟨hno, f, h⟩
  · rw [h]
    exact .reported _ (fun p hp => by rw [hacc] at hp; cases hp; exact hok) hx hst
  · rw [h]
    exact .stuck f rs imm hacc hno

theorem not_asksExit_of {s : State} {d : Decoded} (h : ∀ g, d ≠ .instr (.syscall g)) : ¬ AsksExit s d :=
  fun ⟨⟨g, hg⟩, _⟩ => h g hg

theorem not_isStoreWord_of {d : Decoded} (h : ∀ rt imm rs, d ≠ .instr (.sw rt imm rs)) : ¬ IsStoreWord d :=
  fun ⟨rt, imm, rs, hd⟩ => h rt imm rs hd

/-- Every instruction has one of the five effects. -/
theorem exec_effect (i : Instr) (s : State) : Effect s (.instr i) (exec i s) := by
  cases i with
  | syscall g =>
    rcases runCycle_exitIfAsked s with ⟨h2, h⟩ | ⟨h2, h⟩
    · simp only [exec, execSyscall, h]
      exact .exited ⟨⟨g, rfl⟩, h2⟩
    · exact effect_of_reported (k := .none) (by simp only [exec, execSyscall, h]; rfl) rfl (fun hx => h2 hx.2)
  | lw rt imm rs =>
    rcases runCycle_loadWord s rt imm rs with ⟨hok, h⟩ | ⟨hno, f, h⟩
    · simp only [exec, execLw, h]
      exact .wrote _ _ (fun p hp => by cases hp; exact hok) (not_asksExit_of (by simp)) (not_isStoreWord_of (by simp)) rfl
    · simp only [exec, execLw, h]
      exact .stuck f rs imm rfl hno
  | sw rt imm rs =>
    rcases runCycle_storeWord s rt imm rs with ⟨hok, h⟩ | ⟨hno, f, h⟩
    · simp only [exec, execSw, h]
      exact .stored _ _ rt imm rs rfl rfl rfl hok
    · simp only [exec, execSw, h]
      exact .stuck f rs imm rfl hno
  | lb _ imm rs => exact effect_of_discardLoad rfl (not_asksExit_of (by simp)) (not_isStoreWord_of (by simp))
  | lh _ imm rs => exact effect_of_discardLoad rfl (not_asksExit_of (by simp)) (not_isStoreWord_of (by simp))
  | lbu _ imm rs => exact effect_of_discardLoad rfl (not_asksExit_of (by simp)) (not_isStoreWord_of (by simp))
  | lhu _ imm rs => exact effect_of_discardLoad rfl (not_asksExit_of (by simp)) (not_isStoreWord_of (by simp))
  | sb => exact effect_of_reported rfl rfl (not_asksExit_of (by simp))
  | sh => exact effect_of_reported rfl rfl (not_asksExit_of (by simp))
  | _ => exact effect_of_wrote rfl rfl rfl

/-- So has every word that is no instruction. -/
theorem execUnknown_effect (u : Unknown) (s : State) : Effect s (.unknown u) (execUnknown u s) := by
  cases u with
  | loadSubop imm rs => exact effect_of_discardLoad rfl (not_asksExit_of (by simp)) (not_isStoreWord_of (by simp))
  | _ => exact effect_of_reported rfl rfl (not_asksExit_of (by simp))

/-- Every word has one of the five effects. -/
theorem execute_effect (w : Word) (s : State) : Effect s (decodeWith s.cfg.codes w) (execute w s) := by
  unfold execute
  cases decodeWith s.cfg.codes w with
  | instr i => exact exec_effect i s
  | unknown u => exact execUnknown_effect u s

/-- A fetch of an admitted program counter answers the word there. -/
theorem State.fetch_of_admits (s : State) (h : s.admits s.current.pc) : s.fetch = .ok (s.wordAt s.current.pc) :=
  s.memRead_of_admits .fetch _ h

/-- A running step is the execution of the word at the program counter. -/
theorem step_running (s : State) (hr : s.run = true) (h : s.admits s.current.pc) :
    step s = execute (s.wordAt s.current.pc) s := by
  simp only [step, cycle, hr, s.fetch_of_admits h]

/-- A running step whose fetch is not admitted is stuck. -/
theorem step_fetch_refused (s : State) (hr : s.run = true) (h : ¬ s.admits s.current.pc) : ∃ f, step s = .fault f := by
  obtain ⟨f, hf⟩ := s.memRead_of_not .fetch _ h
  exact ⟨f, by simp only [step, cycle, hr, State.fetch, hf]⟩

/-- After the end of a run nothing changes. -/
theorem step_ended (s : State) (hr : s.run = false) : step s = .next s := by
  simp only [step, hr]

@[simp] theorem runSteps_zero (s : State) : runSteps 0 s = .next s := rfl

/-- The run of `k + 1` steps is the run of `k` from what the first step answers. -/
theorem runSteps_succ_next (k : Nat) (s t : State) (h : step s = .next t) : runSteps (k + 1) s = runSteps k t := by
  have h' : core.step s = .next t := h
  simp only [runSteps, Host.Core.run, h']
  rfl

/-- A run that begins with a fault is that fault. -/
theorem runSteps_succ_fault (k : Nat) (s : State) (f : Fault) (h : step s = .fault f) :
    runSteps (k + 1) s = .fault f := by
  have h' : core.step s = .fault f := h
  simp only [runSteps, Host.Core.run, h']
  rfl

/-- A step is never refused. -/
theorem execute_not_refused (w : Word) (s : State) (r : Refusal) : execute w s ≠ .refused r := by
  intro h
  have e := execute_effect w s
  rw [h] at e
  cases e

/-- What a completed cycle leaves has the program counter advanced, NEXT committed and the configuration kept. -/
theorem Effect.advances {s t : State} {d : Decoded} (h : Effect s d (.next t)) : Advances s t := by
  cases h <;> exact advances_of_next rfl rfl rfl

/-- Its program counter is the next one of the width it has. -/
theorem Effect.current_pc {s t : State} {d : Decoded} (h : Effect s d (.next t)) :
    t.current.pc = s.cfg.nextPc s.current.pc := by
  cases h <;> rfl

/-- So it is 4 further on modulo 2^PC_WIDTH. -/
theorem Effect.advancesModWidth {s t : State} {d : Decoded} (h : Effect s d (.next t)) : AdvancesModWidth s t := by
  rw [AdvancesModWidth, h.current_pc, s.cfg.toNat_nextPc]

end Sys2Proof.Machine
end

