-- ==== Sys2Proof/Tests/Slice0.lean ====
section
/-! SUPPORT. Tests. Expected values come from 95_test_vectors.md (the row stands in each docstring) or from the
field layout of rules R51 and R52, never from the model. The witnesses show, for every obligation with
hypotheses, a concrete case that meets them, each clause at a boundary. -/

namespace Sys2Proof.Tests

open Sys2Proof.Machine

/-! ### Small states -/

/-- The default table with opcode 34 admitted as a reserved load and 42 as a reserved store: rows of no
instruction. -/
def wideCodes : Codes := { Codes.mipsI with loadReserved := [32, 33, 34, 36, 37], storeReserved := [40, 41, 42] }

/-- Code at 0x00400000 to 0x0040000F and the two words at 0x10000000 mapped, nothing else. -/
def lab : Config := { Config.standard with mapped := [⟨0x00400000, 0x0040000F⟩, ⟨0x10000000, 0x10000007⟩] }

/-- The same, refusing misaligned addresses. -/
def strict : Config := { lab with misaligned := .refuse }

/-- The same as `lab`, big-endian. -/
def bigLab : Config := { lab with byteOrder := .big }

/-- The same as `lab` with a program counter of 16 bits and one mapped word at the top of what it reaches. -/
def narrow : Config := { lab with pcWidth := 16, mapped := [⟨0, 3⟩, ⟨0xFFFC, 0xFFFF⟩] }

/-- Register `i` set to `v`. -/
def setReg (i : RegIdx) (v : Word) (s : State) : State :=
  { s with current := { s.current with regs := s.current.regs.set i v } }

/-- The machine `c`, the program counter at 0x00400000, registers 8 and 9 given. -/
def start (c : Config) (a b : Word) : State :=
  setReg 8 a (setReg 9 b { State.resetOf c with current := { regs := c.resetRegs, pc := 0x00400000 } })

/-- The program counter at `p`. -/
def atPc (p : Word) (s : State) : State := { s with current := { s.current with pc := p } }

/-- The words of M6 and M7 stored at 0x10000000. -/
def withData (s : State) : State :=
  { s with mem := (s.mem.setWord s.cfg.byteOrder 0x10000000 0x11223344).setWord s.cfg.byteOrder 0x10000004 0x55667788 }

/-- What one step over the word `w` leaves, as far as `f` shows; nothing where the machine is stuck. -/
def after {α : Type} (w : Word) (s : State) (f : State → α) : Option α :=
  match step (s.placeWord w) with
  | .next t => some (f t)
  | _ => none

/-- The fault of one step over the word `w`. -/
def faultOf (w : Word) (s : State) : Option Fault :=
  match step (s.placeWord w) with
  | .fault f => some f
  | _ => none

/-! ### WellFormed: each check refuses an ill-formed term -/

theorem test_functsDistinct_refuses : { Codes.mipsI with fnAdd := 12 }.functsDistinct = false := by decide
theorem test_immSubopsDistinct_refuses : { Codes.mipsI with opAddi := 55 }.immSubopsDistinct = false := by decide
theorem test_loadSubopsDistinct_refuses : { Codes.mipsI with loadReserved := [43] }.loadSubopsDistinct = false := by decide
theorem test_storeSubopsDistinct_refuses : { Codes.mipsI with storeReserved := [35] }.storeSubopsDistinct = false := by decide
theorem test_categoriesDisjoint_refuses : { Codes.mipsI with storeReserved := [32] }.categoriesDisjoint = false := by decide
theorem test_reservedDistinct_refuses : { Codes.mipsI with opLb := 33 }.reservedDistinct = false := by decide
theorem test_wellFormed_refuses : { Codes.mipsI with fnSltu := 42 }.wellFormed = false := by decide
theorem test_instr_wellFormed_refuses :
    (Instr.lb 9 0 8).wellFormed { Codes.mipsI with loadReserved := [33, 36, 37] } = false := by decide
theorem test_conventional_refuses :
    (Instr.add 10 8 9 31).conventional = false ∧ (Instr.lui 9 0x1234 15).conventional = false ∧
    (Instr.syscall 1).conventional = false := by decide

/-! ### Decoding: words written out field by field from rules R51, R52 and R57 to R60 -/

theorem test_decode_add : decode 0b000000_01000_01001_01010_00000_100000 = .instr (.add 10 8 9 0) := by decide
theorem test_decode_addu : decode 0b000000_01000_01001_01010_00000_100001 = .instr (.addu 10 8 9 0) := by decide
theorem test_decode_sub : decode 0b000000_01000_01001_01010_00000_100010 = .instr (.sub 10 8 9 0) := by decide
theorem test_decode_subu : decode 0b000000_01000_01001_01010_00000_100011 = .instr (.subu 10 8 9 0) := by decide
theorem test_decode_and : decode 0b000000_01000_01001_01010_00000_100100 = .instr (.and 10 8 9 0) := by decide
theorem test_decode_or : decode 0b000000_01000_01001_01010_00000_100101 = .instr (.or 10 8 9 0) := by decide
theorem test_decode_xor : decode 0b000000_01000_01001_01010_00000_100110 = .instr (.xor 10 8 9 0) := by decide
theorem test_decode_nor : decode 0b000000_01000_01001_01010_00000_100111 = .instr (.nor 10 8 9 0) := by decide
theorem test_decode_slt : decode 0b000000_01000_01001_01010_00000_101010 = .instr (.slt 10 8 9 0) := by decide
theorem test_decode_sltu : decode 0b000000_01000_01001_01010_00000_101011 = .instr (.sltu 10 8 9 0) := by decide
theorem test_decode_shamt_kept : decode 0b000000_01000_01001_01010_11111_100000 = .instr (.add 10 8 9 31) := by decide
theorem test_decode_syscall : decode 0b000000_00000_00000_00000_00000_001100 = .instr (.syscall 0) := by decide
theorem test_decode_addi : decode 0b001000_01000_01001_1111111111111111 = .instr (.addi 9 8 0xFFFF) := by decide
theorem test_decode_addiu : decode 0b001001_01000_01001_0000000000000001 = .instr (.addiu 9 8 1) := by decide
theorem test_decode_slti : decode 0b001010_01000_01001_0000000000000001 = .instr (.slti 9 8 1) := by decide
theorem test_decode_sltiu : decode 0b001011_01000_01001_0000000000000001 = .instr (.sltiu 9 8 1) := by decide
theorem test_decode_andi : decode 0b001100_01000_01001_0000000000000001 = .instr (.andi 9 8 1) := by decide
theorem test_decode_ori : decode 0b001101_01000_01001_0000000000000001 = .instr (.ori 9 8 1) := by decide
theorem test_decode_xori : decode 0b001110_01000_01001_1000000000000000 = .instr (.xori 9 8 0x8000) := by decide
theorem test_decode_lui : decode 0b001111_01111_01001_0001001000110100 = .instr (.lui 9 0x1234 15) := by decide
theorem test_decode_lb : decode 0b100000_01000_01001_0000000000000001 = .instr (.lb 9 1 8) := by decide
theorem test_decode_lh : decode 0b100001_01000_01001_0000000000000010 = .instr (.lh 9 2 8) := by decide
theorem test_decode_lw : decode 0b100011_01000_01001_0000000000000100 = .instr (.lw 9 4 8) := by decide
theorem test_decode_lbu : decode 0b100100_01000_01001_0000000000000001 = .instr (.lbu 9 1 8) := by decide
theorem test_decode_lhu : decode 0b100101_01000_01001_0000000000000010 = .instr (.lhu 9 2 8) := by decide
theorem test_decode_sb : decode 0b101000_01000_01001_0000000000000001 = .instr (.sb 9 1 8) := by decide
theorem test_decode_sh : decode 0b101001_01000_01001_0000000000000010 = .instr (.sh 9 2 8) := by decide
theorem test_decode_sw : decode 0b101011_01000_01001_0000000000000100 = .instr (.sw 9 4 8) := by decide

/-- W6 to W16: words that are no instruction. -/
theorem test_decode_unknown :
    [0x00000000, 0x00084080, 0x01200008, 0x01090018, 0x0000000D, 0x0109503F].all (fun w => decode w == .unknown .funct) ∧
    [0x11090003, 0x08100000, 0x0C100000, 0x89090000, 0xFFFFFFFF].all (fun w => decode w == .unknown .opcode) := by
  decide

/-- Rules R119, R127, R137: the cases the default table leaves without a word, under a wider one. -/
theorem test_decode_unknown_wide :
    decodeWith wideCodes 0x89090004 = .unknown (.loadSubop 4 8) ∧ decodeWith wideCodes 0xA9090004 = .unknown .storeSubop ∧
    decodeWith { Codes.mipsI with opLui := 55 } 0xDC091234 = .instr (.lui 9 0x1234 0) := by decide

/-- F1 to F13. -/
theorem test_bits :
    bits 0xDEADBEEF 31 0 = 0xDEADBEEF ∧ bits 0xDEADBEEF 31 31 = 1 ∧ bits 0xDEADBEEF 0 0 = 1 ∧ bits 0xDEADBEEF 4 4 = 0 ∧
    opcodeOf 0xDEADBEEF = 0x37 ∧ wordSubop 0xDEADBEEF = 7 ∧ rsOf 0xDEADBEEF = 0x15 ∧ rtOf 0xDEADBEEF = 0xD ∧
    rdOf 0xDEADBEEF = 0x17 ∧ shamtOf 0xDEADBEEF = 0x1B ∧ functOf 0xDEADBEEF = 0x2F ∧ immOf 0xDEADBEEF = 0xBEEF ∧
    bits 0xFFFFFFFF 31 1 = 0x7FFFFFFF := by decide

theorem test_encode_words :
    encode (.add 10 8 9 0) = 0x01095020 ∧ encode (.syscall 0) = 0x0000000C ∧ encode (.addi 9 8 0xFFFF) = 0x2109FFFF ∧
    encode (.lui 9 0x1234 15) = 0x3DE91234 ∧ encode (.lw 9 4 8) = 0x8D090004 ∧ encode (.sw 9 4 8) = 0xAD090004 := by decide

theorem test_decodeTableWord : decodeTableWord 32 0x01095020 = some (.add 10 8 9 0) ∧ decodeTableWord 32 0 = none := by decide

/-! ### One step of each instruction -/

/-- A4. -/
theorem test_add_wraps : after 0x01095020 (start lab 0x7FFFFFFF 1) (·.reg 10) = some 0x80000000 := by decide
/-- B1. -/
theorem test_add_in_place : after 0x01084020 (start lab 5 0) (·.reg 8) = some 10 := by decide
/-- A13. -/
theorem test_addu : after 0x01095021 (start lab 0x12345678 0x0F0F0F0F) (·.reg 10) = some 0x21436587 := by decide
/-- B10. -/
theorem test_addu_pc_wraps :
    after 0x01095021 (atPc 0xFFFFFFFC (start lab 1 2)) (fun t => (t.current.pc, t.reg 10)) = some (0, 3) := by decide
/-- A2. -/
theorem test_sub_order : after 0x01095022 (start lab 5 7) (·.reg 10) = some 0xFFFFFFFE := by decide
/-- A8. -/
theorem test_subu_wraps : after 0x01095023 (start lab 0x80000000 0x7FFFFFFF) (·.reg 10) = some 1 := by decide
/-- A13. -/
theorem test_and : after 0x01095024 (start lab 0x12345678 0x0F0F0F0F) (·.reg 10) = some 0x02040608 := by decide
/-- A13. -/
theorem test_or : after 0x01095025 (start lab 0x12345678 0x0F0F0F0F) (·.reg 10) = some 0x1F3F5F7F := by decide
/-- A13. -/
theorem test_xor : after 0x01095026 (start lab 0x12345678 0x0F0F0F0F) (·.reg 10) = some 0x1D3B5977 := by decide
/-- A13. -/
theorem test_nor : after 0x01095027 (start lab 0x12345678 0x0F0F0F0F) (·.reg 10) = some 0xE0C0A080 := by decide
/-- A6. -/
theorem test_slt_signed : after 0x0109502A (start lab 0xFFFFFFFF 1) (·.reg 10) = some 1 := by decide
/-- B6. -/
theorem test_slt_overwrites : after 0x0109502A (setReg 10 0xFFFFFFFF (start lab 3 3)) (·.reg 10) = some 0 := by decide
/-- A6. -/
theorem test_sltu_unsigned : after 0x0109502B (start lab 0xFFFFFFFF 1) (·.reg 10) = some 0 := by decide
/-- A7. -/
theorem test_sltu_less : after 0x0109502B (start lab 1 0xFFFFFFFF) (·.reg 10) = some 1 := by decide
/-- B7. -/
theorem test_syscall_exits :
    after 0x0000000C (setReg 2 10 (start lab 0 0)) (fun t => (t.run, t.current.pc)) = some (false, 0x00400004) := by decide
/-- B8. -/
theorem test_syscall_compares_all_bits :
    after 0x0000000C (setReg 2 0x0001000A (start lab 0 0)) (fun t => (t.run, t.diag)) = some (true, .none) := by decide
/-- I9. -/
theorem test_addi_sign_extends : after 0x21098000 (start lab 0x12345678 0) (·.reg 9) = some 0x1233D678 := by decide
/-- J1. -/
theorem test_addiu_in_place : after 0x25080001 (start lab 41 0) (·.reg 8) = some 42 := by decide
/-- I2. -/
theorem test_addiu_sign_extends : after 0x2509FFFF (start lab 5 0) (·.reg 9) = some 4 := by decide
/-- I2. -/
theorem test_slti : after 0x2909FFFF (start lab 5 9) (·.reg 9) = some 0 := by decide
/-- I2. -/
theorem test_sltiu_sign_extends : after 0x2D09FFFF (start lab 5 0) (·.reg 9) = some 1 := by decide
/-- I14. -/
theorem test_andi_zero_extends : after 0x3109FF00 (start lab 0x12345678 0) (·.reg 9) = some 0x00005600 := by decide
/-- I14. -/
theorem test_ori_zero_extends : after 0x3509FF00 (start lab 0x12345678 0) (·.reg 9) = some 0x1234FF78 := by decide
/-- I14. -/
theorem test_xori_zero_extends : after 0x3909FF00 (start lab 0x12345678 0) (·.reg 9) = some 0x1234A978 := by decide
/-- J5. -/
theorem test_lui : after 0x3C09FFFF (start lab 0 0x00001234) (·.reg 9) = some 0xFFFF0000 := by decide
/-- M6. -/
theorem test_lw_misaligned_little :
    after 0x8D090002 (withData (start lab 0x10000000 0)) (·.reg 9) = some 0x77881122 := by decide
/-- M7. -/
theorem test_lw_misaligned_big :
    after 0x8D090002 (withData (start bigLab 0x10000000 0)) (·.reg 9) = some 0x33445566 := by decide
/-- M8 and M9. -/
theorem test_lw_stuck :
    faultOf 0x8D090002 (start strict 0x10000000 0) = some (.misaligned .load 0x10000002) ∧
    faultOf 0x8D090000 (start lab 0x20000000 0) = some (.unmapped .load 0x20000000) := by decide
/-- M10 and M11. -/
theorem test_lb :
    after 0x81090000 (withData (start lab 0x10000000 0x11111111)) (fun t => (t.reg 9, t.diag)) =
      some (0x11111111, .unknownLoadSubop) ∧
    faultOf 0x81090000 (start lab 0x20000000 0) = some (.unmapped .load 0x20000000) := by decide
/-- As M10 (rules R129 to R131). -/
theorem test_lh_lbu_lhu :
    [0x85090000, 0x91090000, 0x95090000].all (fun w =>
      after w (withData (start lab 0x10000000 0x11111111)) (fun t => (t.reg 9, t.diag)) ==
        some (0x11111111, Diag.unknownLoadSubop)) := by decide
/-- M3. -/
theorem test_sw_little :
    after 0xAD090004 (start lab 0x10000000 0x12345678)
      (fun t => [t.byteAt 0x10000003, t.byteAt 0x10000004, t.byteAt 0x10000005, t.byteAt 0x10000006, t.byteAt 0x10000007,
        t.byteAt 0x10000008]) = some [0, 0x78, 0x56, 0x34, 0x12, 0] := by decide
/-- M4. -/
theorem test_sw_big :
    after 0xAD090004 (start bigLab 0x10000000 0x12345678)
      (fun t => [t.byteAt 0x10000004, t.byteAt 0x10000005, t.byteAt 0x10000006, t.byteAt 0x10000007]) =
      some [0x12, 0x34, 0x56, 0x78] := by decide
/-- M12, and M13: the reserved store is not stuck at an unmapped address. -/
theorem test_sb :
    after 0xA1090000 (withData (start lab 0x10000000 0xAB)) (fun t => (t.wordAt 0x10000000, t.diag)) =
      some (0x11223344, .unknownStoreSubop) ∧
    after 0xA1090000 (start lab 0x20000000 0xAB) (fun t => (t.current.pc, t.diag)) =
      some (0x00400004, .unknownStoreSubop) := by decide
/-- As M13 (rule R139). -/
theorem test_sh :
    after 0xA5090000 (start lab 0x20000000 0xAB) (fun t => (t.current.pc, t.diag)) =
      some (0x00400004, .unknownStoreSubop) := by decide

/-- S8 and W6: an unknown word advances the program counter and reports. -/
theorem test_unknown_words :
    after 0xFC000000 (start lab 5 7) (fun t => (t.reg 8, t.current.pc, t.run, t.diag)) =
      some (5, 0x00400004, true, .unknownOpcode) ∧
    after 0x00000000 (start lab 5 7) (fun t => (t.reg 8, t.current.pc, t.run, t.diag)) =
      some (5, 0x00400004, true, .unknownFunct) := by decide

/-- P5: the step after the mapped code is stuck at its fetch. -/
theorem test_fetch_stuck :
    step (atPc 0x00400010 (start lab 0 0)) = .fault (.unmapped .fetch 0x00400010) := by rfl

/-- Rules R28 and R36 at the top of the address space: a mapped word that wraps is read, across the wrap. -/
theorem test_lw_wraps_at_the_top :
    after 0x8D090000 { start Config.standard 0xFFFFFFFE 0 with mem := [(0, 0x33), (1, 0x44), (0xFFFFFFFE, 0x11), (0xFFFFFFFF, 0x22)] }
      (·.reg 9) = some 0x44332211 := by decide

/-- Rule R7's PC_WIDTH: at 16 bits the program counter wraps from 0xFFFC to 0. -/
theorem test_narrow_pc_wraps : after 0x01095020 (atPc 0xFFFC (start narrow 5 7)) (fun t => (t.current.pc, t.reg 10)) = some (0, 12) := by
  decide

/-- M11 at the ports: a refused read of a reserved load produces no diagnostic (rule R149). -/
theorem test_ports_refused_read :
    (ports ((start lab 0x20000000 0).placeWord 0x81090000)).diag = 0 ∧
    (ports ((start lab 0x20000000 0).placeWord 0x81090000)).memFault = true := by decide

/-- The ports of rule R25 for M3 and for the fetch of an unmapped address. -/
theorem test_ports :
    ports ((start lab 0x10000000 0x12345678).placeWord 0xAD090004) =
      { imemAddr := 0x00400000, imemRdata := some 0xAD090004, dmemAddr := some 0x10000004, dmemRe := false, dmemRdata := none,
        dmemWe := true, dmemWdata := some 0x12345678, run := true, diag := 0, memFault := false } ∧
    (ports (start { lab with mapped := [] } 0 0)).memFault = true := by decide

/-! ### Witnesses: the hypotheses of each obligation are met -/

theorem witness_BitsIsShiftAndMask : (0 ≤ 31 ∧ 31 ≤ 31) ∧ (31 ≤ 31 ∧ 31 ≤ 31) ∧ (0 ≤ 0 ∧ 0 ≤ 31) ∧ (1 ≤ 31 ∧ 31 ≤ 31) := by
  decide

theorem witness_DecodeAfterEncode :
    Codes.mipsI.wellFormed = true ∧ (Instr.lb 31 0x8000 0).wellFormed Codes.mipsI = true ∧
    wideCodes.wellFormed = true ∧ (Instr.sh 0 0xFFFF 31).wellFormed wideCodes = true := by decide

theorem witness_EncodeAfterDecode :
    Codes.mipsI.wellFormed = true ∧ decodeWith Codes.mipsI 0x03FFFFCC = .instr (.syscall 0xFFFFF) ∧
    wideCodes.wellFormed = true ∧ decodeWith wideCodes 0x81090000 = .instr (.lb 9 0 8) := by decide

/-- The gaps in the tables of opcodes and function codes, at their ends. -/
theorem witness_WordsThatAreNoInstruction :
    [1, 7, 16, 31, 34, 38, 39, 42, 44, 63].all (fun n => decode (BitVec.ofNat 32 (n * 2 ^ 26)) == .unknown .opcode) ∧
    [0, 11, 13, 31, 40, 41, 44, 63].all (fun n => decode (BitVec.ofNat 32 n) == .unknown .funct) := by decide

theorem witness_UnusedFieldsIgnored :
    (start lab 0 0).cfg.codes = Codes.mipsI ∧
    (opcodeOf 0x01095020 = 0 ∧ opcodeOf 0x010957E0 = 0 ∧ rsOf 0x01095020 = rsOf 0x010957E0 ∧
      rtOf 0x01095020 = rtOf 0x010957E0 ∧ rdOf 0x01095020 = rdOf 0x010957E0 ∧ functOf 0x01095020 = functOf 0x010957E0) ∧
    (opcodeOf 0x0000000C = 0 ∧ opcodeOf 0x03FFFFCC = 0 ∧ functOf 0x0000000C = 12 ∧ functOf 0x03FFFFCC = 12) ∧
    (opcodeOf 0x3C091234 = 15 ∧ opcodeOf 0x3DE91234 = 15 ∧ rtOf 0x3C091234 = rtOf 0x3DE91234 ∧
      immOf 0x3C091234 = immOf 0x3DE91234) := by decide

/-- A word of every row of the opcode table, its ignored fields not 0: what the encoding clauses of the family
statements assume. -/
theorem witness_encoding_clauses :
    [(0x010957E0, 0x20), (0x010957E1, 0x21), (0x010957E2, 0x22), (0x010957E3, 0x23), (0x010957E4, 0x24), (0x010957E5, 0x25),
      (0x010957E6, 0x26), (0x010957E7, 0x27), (0x010957EA, 0x2A), (0x010957EB, 0x2B), (0x03FFFFCC, 0x0C)].all
      (fun p : Word × Word => p.1 &&& 0xFC00003F == p.2) ∧
    [(0x2109FFFF, 0x20000000), (0x2509FFFF, 0x24000000), (0x2909FFFF, 0x28000000), (0x2D09FFFF, 0x2C000000),
      (0x3109FF00, 0x30000000), (0x3509FF00, 0x34000000), (0x3909FF00, 0x38000000), (0x3DE91234, 0x3C000000),
      (0x81090000, 0x80000000), (0x85090000, 0x84000000), (0x8D09FFFC, 0x8C000000), (0x91090000, 0x90000000),
      (0x95090000, 0x94000000), (0xA1090000, 0xA0000000), (0xA5090000, 0xA4000000), (0xAD090004, 0xAC000000)].all
      (fun p : Word × Word => p.1 &&& 0xFC000000 == p.2) := by decide

theorem witness_AluComputes : 0 < 32 ∧ 31 < 32 := by decide

theorem witness_SyscallExits : (setReg 2 10 (start lab 0 0)).reg 2 = 10 ∧ (setReg 2 0x0001000A (start lab 0 0)).reg 2 ≠ 10 := by
  decide

/-- The last mapped word, one byte beyond it, a misaligned word under `refuse`, a word that wraps. -/
theorem witness_LoadWord :
    (start lab 0x10000000 0).admits ((start lab 0x10000000 0).reg 8 + (4 : Imm16).signExtend 32) ∧
    ¬ (start lab 0x10000000 0).admits ((start lab 0x10000000 0).reg 8 + (5 : Imm16).signExtend 32) ∧
    (start strict 0x10000000 0).admits ((start strict 0x10000000 0).reg 8 + (4 : Imm16).signExtend 32) ∧
    ¬ (start strict 0x10000000 0).admits ((start strict 0x10000000 0).reg 8 + (2 : Imm16).signExtend 32) ∧
    (start Config.standard 2 0).admits ((start Config.standard 2 0).reg 8 + (0xFFFC : Imm16).signExtend 32) := by
  simp only [State.admits]; decide

theorem witness_ReservedLoads :
    (start lab 0x10000001 0).admits ((start lab 0x10000001 0).reg 8 + (0xFFFF : Imm16).signExtend 32) ∧
    ¬ (start lab 0x10000000 0).admits ((start lab 0x10000000 0).reg 8 + (0xFFFF : Imm16).signExtend 32) := by
  simp only [State.admits]; decide

/-- The bytes of the word at 0x10000004, and the neighbours on both sides. -/
theorem witness_StoreWord :
    (withData (start lab 0x10000000 7)).mem.wf = true ∧
    (withData (start lab 0x10000000 7)).admits ((withData (start lab 0x10000000 7)).reg 8 + (4 : Imm16).signExtend 32) ∧
    ¬ (withData (start lab 0x10000000 7)).admits ((withData (start lab 0x10000000 7)).reg 8 + (5 : Imm16).signExtend 32) ∧
    (∀ k, k < 4 → 0x10000003 ≠ byteAddr 0x10000004 k) ∧ (∀ k, k < 4 → 0x10000008 ≠ byteAddr 0x10000004 k) := by
  simp only [State.admits]; decide

theorem witness_UnknownOpcodeOnlyReports :
    classify (start lab 0 0).cfg.codes (opcodeOf 0x04000000) = .unknown ∧
    classify (start lab 0 0).cfg.codes (opcodeOf 0xFFFFFFFF) = .unknown := by decide

theorem witness_UnknownFunctOnlyReports :
    (start lab 0 0).cfg.codes = Codes.mipsI ∧ opcodeOf 0x0000000D = 0 ∧
    (functOf 0x0000000D).toNat ∉ [12, 32, 33, 34, 35, 36, 37, 38, 39, 42, 43] := by decide

theorem witness_UnknownCasesAlike :
    (∃ t, execute 0xA1090000 (start lab 0x10000004 0) = .next t ∧ t.diag ≠ .none) ∧
    (start lab 0x10000004 0).admits ((start lab 0x10000004 0).reg 8 + (0 : Imm16).signExtend 32) ∧
    ¬ (start lab 0x10000004 0).admits ((start lab 0x10000004 0).reg 8 + (1 : Imm16).signExtend 32) := by
  simp only [State.admits]
  exact ⟨⟨_, rfl, by decide⟩, by decide⟩

/-- A word of each of the five kinds the default numbers give, executed. -/
theorem witness_DiagnosticOfEveryWord :
    (start lab 0x10000000 0).cfg.codes = Codes.mipsI ∧
    (∃ t, execute 0xFC000000 (start lab 0x10000000 0) = .next t) ∧ (∃ t, execute 0x00000000 (start lab 0x10000000 0) = .next t) ∧
    (∃ t, execute 0x81090000 (start lab 0x10000000 0) = .next t) ∧ (∃ t, execute 0xA1090000 (start lab 0x10000000 0) = .next t) ∧
    (∃ t, execute 0x8D090000 (start lab 0x10000000 0) = .next t) :=
  ⟨rfl, ⟨_, rfl⟩, ⟨_, rfl⟩, ⟨_, rfl⟩, ⟨_, rfl⟩, ⟨_, rfl⟩⟩

theorem witness_RegisterZeroIsOrdinary :
    (start lab 5 7).cfg.codes = Codes.mipsI ∧ (start lab 5 7).reg 8 = 5 ∧ (start lab 5 7).reg 9 = 7 := by decide

theorem witness_WordFromBytes : (start lab 0 0).cfg.byteOrder = .little ∧ (start bigLab 0 0).cfg.byteOrder = .big := by decide

/-- Good: the last mapped word. Not good: one byte further, and a misaligned word under `refuse`. -/
theorem witness_AccessAdmittedExactly :
    (strict.isMapped 0x10000004 = true ∧ strict.isMapped 0x10000005 = true ∧ strict.isMapped 0x10000006 = true ∧
      strict.isMapped 0x10000007 = true ∧ (strict.misaligned = .refuse → 0x10000004 % 4 = 0)) ∧
    lab.isMapped 0x10000008 = false ∧ ¬ (strict.misaligned = .refuse → 0x10000002 % 4 = 0) := by decide

/-- A misaligned store, and a later state that differs in another byte and another register. -/
theorem witness_LoadReturnsStoredWord :
    ∃ s t u : State, s.mem.wf = true ∧ exec (.sw 9 1 8) s = .next t ∧ u.cfg = t.cfg ∧ u ≠ t ∧
      (∀ k, k < 4 → u.byteAt (byteAddr (s.reg 8 + (1 : Imm16).signExtend 32) k) =
        t.byteAt (byteAddr (s.reg 8 + (1 : Imm16).signExtend 32) k)) ∧
      u.reg 8 + (1 : Imm16).signExtend 32 = s.reg 8 + (1 : Imm16).signExtend 32 := by
  refine ⟨start lab 0x10000000 0x12345678, _,
    setReg 9 0 { (start lab 0x10000000 0x12345678).stored 0x10000001 0x12345678 with
      mem := ((start lab 0x10000000 0x12345678).stored 0x10000001 0x12345678).mem.setByte 0x10000005 0xFF },
    by decide, rfl, rfl, by decide, by decide, by decide⟩

/-- At width 32, and at width 16 where the next address wraps to 0. -/
theorem witness_StoreSeenByNextFetch :
    ((start lab 0x00400000 0x3C0A5555).mem.wf = true ∧ (start lab 0x00400000 0x3C0A5555).run = true ∧
      (∃ t, exec (.sw 9 4 8) (start lab 0x00400000 0x3C0A5555) = .next t) ∧
      ((start lab 0x00400000 0x3C0A5555).reg 8 + (4 : Imm16).signExtend 32).toNat =
        ((start lab 0x00400000 0x3C0A5555).current.pc.toNat + 4) % 2 ^ lab.pcWidth.val) ∧
    ((atPc 0xFFFC (start narrow 0 7)).mem.wf = true ∧ (atPc 0xFFFC (start narrow 0 7)).run = true ∧
      (∃ t, exec (.sw 9 0 8) (atPc 0xFFFC (start narrow 0 7)) = .next t) ∧
      ((atPc 0xFFFC (start narrow 0 7)).reg 8 + (0 : Imm16).signExtend 32).toNat =
        ((atPc 0xFFFC (start narrow 0 7)).current.pc.toNat + 4) % 2 ^ narrow.pcWidth.val) :=
  ⟨⟨by decide, rfl, ⟨_, rfl⟩, by decide⟩, ⟨by decide, rfl, ⟨_, rfl⟩, by decide⟩⟩

theorem witness_SelfStoreExecutesAsFetched :
    ((start lab 0x003FFFFC 7).placeWord 0xAD090004).mem.wf = true ∧ ((start lab 0x003FFFFC 7).placeWord 0xAD090004).run = true ∧
    ((start lab 0x003FFFFC 7).placeWord 0xAD090004).admits 0x00400000 ∧
    decodeWith lab.codes (((start lab 0x003FFFFC 7).placeWord 0xAD090004).wordAt 0x00400000) = .instr (.sw 9 4 8) ∧
    ((start lab 0x003FFFFC 7).placeWord 0xAD090004).reg 8 + (4 : Imm16).signExtend 32 = 0x00400000 := by
  simp only [State.admits]; decide

theorem witness_OnlyStoreWordChangesMemory :
    (∀ rt imm rs, Instr.sb 9 0 8 ≠ .sw rt imm rs) ∧ (∃ t, exec (.sb 9 0 8) (start lab 0x10000000 7) = .next t) ∧
    (∀ rt imm rs, Instr.lw 9 0 8 ≠ .sw rt imm rs) ∧ (∃ t, exec (.lw 9 0 8) (start lab 0x10000000 7) = .next t) :=
  ⟨fun _ _ _ h => (nomatch h), ⟨_, rfl⟩, fun _ _ _ h => (nomatch h), ⟨_, rfl⟩⟩

/-- At the last mapped word of code: an instruction there, and the word 0 there. -/
theorem witness_StepRunsDecodedInstruction :
    ((atPc 0x0040000C (start lab 5 7)).placeWord 0x01095020).run = true ∧
    ((atPc 0x0040000C (start lab 5 7)).placeWord 0x01095020).admits 0x0040000C ∧
    decodeWith lab.codes (((atPc 0x0040000C (start lab 5 7)).placeWord 0x01095020).wordAt 0x0040000C) = .instr (.add 10 8 9 0) ∧
    (atPc 0x0040000C (start lab 5 7)).run = true ∧ (atPc 0x0040000C (start lab 5 7)).admits 0x0040000C ∧
    decodeWith lab.codes ((atPc 0x0040000C (start lab 5 7)).wordAt 0x0040000C) = .unknown .funct := by
  simp only [State.admits]; decide

/-- A program counter that is unmapped and, under `refuse`, misaligned. -/
theorem witness_PlacedWordIsExecuted :
    (atPc 0x20000001 (withData (start strict 5 7))).mem.wf = true ∧
    faultOf 0x01095020 (atPc 0x20000001 (start strict 5 7)) = none := by decide

/-- Stuck at the fetch, stuck at the data access. -/
theorem witness_StuckExactlyOnRefusedAccess :
    (atPc 0x0040000D (start lab 0 0)).stuck ∧ ((start lab 0x10000005 0).placeWord 0x8D090000).stuck :=
  ⟨⟨_, rfl⟩, ⟨_, rfl⟩⟩

theorem witness_EveryCycleAdvances :
    ((start lab 5 7).run = true ∧ ∃ t, step (start lab 5 7) = .next t) ∧ (∃ t, execute 0x01095020 (start lab 5 7) = .next t) :=
  ⟨⟨rfl, ⟨_, rfl⟩⟩, ⟨_, rfl⟩⟩

/-- A misaligned program counter, the top at width 32, the top at width 16. -/
theorem witness_ProgramCounterAlignmentKept :
    ((atPc 0x00400003 (start lab 5 7)).pcFits ∧ ∃ t, step (atPc 0x00400003 (start lab 5 7)) = .next t) ∧
    ((atPc 0xFFFFFFFC (start Config.standard 5 7)).pcFits ∧ (atPc 0xFFFFFFFC (start Config.standard 5 7)).run = true ∧
      Config.standard.pcWidth = 32 ∧ ∃ t, step (atPc 0xFFFFFFFC (start Config.standard 5 7)) = .next t) ∧
    ((atPc 0xFFFC (start narrow 5 7)).pcFits ∧ (atPc 0xFFFC (start narrow 5 7)).run = true ∧
      0xFFFC + 4 = 2 ^ narrow.pcWidth.val ∧ ∃ t, step (atPc 0xFFFC (start narrow 5 7)) = .next t) := by
  simp only [State.pcFits]
  exact ⟨⟨by decide, _, rfl⟩, ⟨by decide, rfl, rfl, _, rfl⟩, ⟨by decide, rfl, by decide, _, rfl⟩⟩

/-- Two steps at width 32, and two at width 16 across the wrap. -/
theorem witness_ProgramsAreStraightLines :
    ((start lab 5 7).pcFits ∧ lab.pcWidth = 32 ∧ ∃ t, runSteps 2 (start lab 5 7) = .next t ∧ t.run = true) ∧
    ((atPc 0xFFFC (start narrow 5 7)).pcFits ∧ ∃ t, runSteps 2 (atPc 0xFFFC (start narrow 5 7)) = .next t ∧ t.run = true) := by
  simp only [State.pcFits]
  exact ⟨⟨by decide, rfl, _, rfl, rfl⟩, ⟨by decide, _, rfl, rfl⟩⟩

theorem witness_RunEndsOnlyAtExit :
    (∃ t, step ((setReg 2 10 (start lab 0 0)).placeWord 0x0000000C) = .next t ∧ t.run = false) ∧
    (∃ t, step (start lab 5 7) = .next t ∧ t.run = true) ∧
    (∃ t, step { start lab 0 0 with run := false } = .next t ∧ t.run = false) :=
  ⟨⟨_, rfl, rfl⟩, ⟨_, rfl, rfl⟩, ⟨_, rfl, rfl⟩⟩

theorem witness_EndedRunIsFrozen : ({ start lab 0 0 with run := false } : State).ended := rfl

theorem witness_AtMostOneRegisterWritten :
    (∃ t, execute 0x01095020 (start lab 5 7) = .next t) ∧
    ((∃ t, execute 0xFC000000 (start lab 5 7) = .next t) ∧ decodeWith lab.codes 0xFC000000 = .unknown .opcode) ∧
    ((∃ t, execute 0xAD090000 (start lab 0x10000000 7) = .next t) ∧ classify lab.codes (opcodeOf 0xAD090000) = .store ∧
      destinationRegister (decodeWith lab.codes 0xAD090000) = none) ∧
    ((∃ t, execute 0x0000000C (start lab 5 7) = .next t) ∧ decodeWith lab.codes 0x0000000C = .instr (.syscall 0)) ∧
    ((∃ t, execute 0x81090000 (start lab 0x10000000 7) = .next t) ∧
      decodeWith lab.codes 0x81090000 ∈ [Decoded.instr (.lb 9 0 8), .instr (.lh 9 0 8), .instr (.lbu 9 0 8), .instr (.lhu 9 0 8)]) :=
  ⟨⟨_, rfl⟩, ⟨⟨_, rfl⟩, rfl⟩, ⟨⟨_, rfl⟩, rfl, rfl⟩, ⟨⟨_, rfl⟩, rfl⟩, ⟨⟨_, rfl⟩, by decide⟩⟩

/-- States that differ in register 9, which `lw $9,4($8)` does not read: one admitted access, one refused. -/
theorem witness_OperandsReadAndWritten :
    (start lab 0x10000000 1).current.pc = (start lab 0x10000000 2).current.pc ∧
    (start lab 0x10000000 1).mem = (start lab 0x10000000 2).mem ∧
    (∀ r ∈ sourceRegisters (decodeWith lab.codes 0x8D090004), (start lab 0x10000000 1).reg r = (start lab 0x10000000 2).reg r) ∧
    destinationRegister (decodeWith lab.codes 0x8D090004) = some 9 ∧
    destinationRegister (decodeWith lab.codes 0x8D090004) ≠ some 8 ∧
    (∃ t, execute 0x8D090004 (start lab 0x10000000 2) = .next t) ∧
    (∃ f, execute 0x8D090005 (start lab 0x10000000 2) = .fault f) :=
  ⟨rfl, rfl, by decide, rfl, by decide, ⟨_, rfl⟩, ⟨_, rfl⟩⟩

theorem witness_NextAndDiagnosticNeverRead :
    (start lab 5 7).run = true ∧ (start lab 5 7).next ≠ { regs := (start lab 5 7).next.regs, pc := 4 } := by decide

theorem witness_ExecuteIgnoresRunFlag :
    (∃ t, execute 0x01095020 (start lab 5 7) = .next t) ∧ (∃ f, execute 0x8D090000 (start lab 0x20000000 7) = .fault f) :=
  ⟨⟨_, rfl⟩, ⟨_, rfl⟩⟩

/-- A configuration with a canonical, mapped image. -/
def imageLab : Config := { lab with resetPc := 0x00400000, image := [(0x00400000, 0x0C), (0x10000007, 0xFF)] }

theorem witness_ResetHasInvariant : imageLab.image.wf = true ∧ imageLab.holds imageLab.image := by
  unfold Config.holds; decide

theorem witness_FirstCycleFetchesFromResetPc :
    imageLab.resetRun = true ∧ imageLab.resetPc.toNat < 2 ^ imageLab.pcWidth.val ∧ (State.resetOf imageLab).admits imageLab.resetPc := by
  simp only [State.admits]; decide

theorem witness_StepKeepsInvariant :
    (State.resetOf imageLab).Inv ∧ ∃ t, step (State.resetOf imageLab) = .next t :=
  ⟨⟨by decide, witness_ResetHasInvariant.2, by decide, witness_ResetHasInvariant.2, (by unfold State.pcFits; decide), rfl⟩, ⟨_, rfl⟩⟩

/-- Fetches admitted: of a load whose read is admitted at the last mapped word, of a store, of a load whose read is
refused one byte further, of a word that is no load; and a fetch refused. -/
theorem witness_PortsCarryTheCycle :
    (((start lab 0x10000000 0).placeWord 0x8D090004).fetch = .ok 0x8D090004 ∧
      classify lab.codes (opcodeOf 0x8D090004) = .load ∧
      ((start lab 0x10000000 0).placeWord 0x8D090004).admits
        (((start lab 0x10000000 0).placeWord 0x8D090004).reg (rsOf 0x8D090004) + (immOf 0x8D090004).signExtend 32)) ∧
    (((start lab 0x10000000 0).placeWord 0x8D090005).fetch = .ok 0x8D090005 ∧
      classify lab.codes (opcodeOf 0x8D090005) = .load ∧
      ¬ ((start lab 0x10000000 0).placeWord 0x8D090005).admits
        (((start lab 0x10000000 0).placeWord 0x8D090005).reg (rsOf 0x8D090005) + (immOf 0x8D090005).signExtend 32) ∧
      ∃ f, execute 0x8D090005 ((start lab 0x10000000 0).placeWord 0x8D090005) = .fault f) ∧
    (((start lab 0x10000000 0).placeWord 0xAD090004).fetch = .ok 0xAD090004 ∧
      classify lab.codes (opcodeOf 0xAD090004) ≠ .load ∧
      decodeWith lab.codes 0xAD090004 = .instr (.sw 9 4 8) ∧
      ∃ t, execute 0xAD090004 ((start lab 0x10000000 0).placeWord 0xAD090004) = .next t) ∧
    (∃ f, (atPc 0x0040000D (start lab 0 0)).fetch = .error f) := by
  simp only [State.admits]
  exact ⟨⟨rfl, rfl, by decide⟩, ⟨rfl, rfl, by decide, _, rfl⟩, ⟨rfl, by decide, rfl, _, rfl⟩, ⟨_, rfl⟩⟩

/-- The word `v` at 0x00400000 of an empty memory in either byte order, each machine refusing misaligned addresses. -/
def strictPair (v : Word) (o : ByteOrder) : State :=
  { start { strict with byteOrder := o } 0 0 with mem := Memory.setWord o [] 0x00400000 v }

theorem byteSwapped_strictPair (v : Word) : ByteSwapped (strictPair v .little) (strictPair v .big) where
  little := rfl
  refuse := rfl
  cfg := rfl
  current := rfl
  run := rfl
  diag := rfl
  bytes := fun a ha k hk => by
    have hw : Memory.wf [] = true := rfl
    show (Memory.setWord .big [] 0x00400000 v).byteAt _ = (Memory.setWord .little [] 0x00400000 v).byteAt _
    by_cases h : a = 0x00400000
    · subst h
      rw [Memory.byteAt_setWord_inside _ _ hw _ _ _ hk, Memory.byteAt_setWord_inside _ _ hw _ _ _ (by omega)]
      rfl
    · have out : ∀ j, j < 4 → ∀ i, i < 4 → byteAddr a j ≠ byteAddr 0x00400000 i := by
        intro j hj i hi e
        rw [byteAddr_eq, byteAddr_eq] at e
        have h1 := a.isLt
        have h2 : (0x00400000 : Word).toNat = 0x00400000 := rfl
        exact h (BitVec.eq_of_toNat_eq (by omega))
      rw [Memory.byteAt_setWord_outside _ _ hw _ _ _ (out k hk),
        Memory.byteAt_setWord_outside _ _ hw _ _ _ (out (3 - k) (by omega))]
      rfl

/-- One pair that steps (`add`), one that is stuck (`lw` from the unmapped address 0). -/
theorem witness_ByteOrderInvisibleWhenAligned :
    (ByteSwapped (strictPair 0x01095020 .little) (strictPair 0x01095020 .big) ∧
      (strictPair 0x01095020 .little).mem.wf = true ∧ (strictPair 0x01095020 .big).mem.wf = true ∧
      ∃ t, step (strictPair 0x01095020 .little) = .next t) ∧
    (ByteSwapped (strictPair 0x8D090000 .little) (strictPair 0x8D090000 .big) ∧
      (strictPair 0x8D090000 .little).mem.wf = true ∧ (strictPair 0x8D090000 .big).mem.wf = true ∧
      ∃ f, step (strictPair 0x8D090000 .little) = .fault f) :=
  ⟨⟨byteSwapped_strictPair _, by decide, by decide, ⟨_, rfl⟩⟩, ⟨byteSwapped_strictPair _, by decide, by decide, ⟨_, rfl⟩⟩⟩

end Sys2Proof.Tests
end

section
/-! PROOFS. Field extraction as arithmetic (rules R70, R71), and the words whose opcode no category matches
(rule R74). -/

namespace Sys2Proof

/-- Field extraction by value: shift right by division, mask by remainder (rule R70). -/
theorem toNat_bits (w : Word) (hi lo : Nat) (h : lo ≤ hi ∧ hi ≤ 31) :
    (bits w hi lo h).toNat = w.toNat / 2 ^ lo % 2 ^ (hi - lo + 1) := by
  rw [bits, BitVec.extractLsb'_toNat, Nat.shiftRight_eq_div_pow]

theorem toNat_bits_full (w : Word) : (bits w 31 0).toNat = w.toNat := by
  rw [toNat_bits, Nat.pow_zero, Nat.div_one]
  exact Nat.mod_eq_of_lt w.isLt

theorem toNat_bits_single (w : Word) (k : Nat) (h : k ≤ k ∧ k ≤ 31) :
    (bits w k k h).toNat = 0 ∨ (bits w k k h).toNat = 1 := by
  have width : 2 ^ (k - k + 1) = 2 := by rw [Nat.sub_self, Nat.zero_add, Nat.pow_one]
  have bound := (bits w k k h).isLt
  omega

/-- Settles O1: the value by `toNat_bits`, the bound by the width, the two ends of the range by the lemmas above. -/
theorem bitsIsShiftAndMask : Obligations.BitsIsShiftAndMask := by
  intro w hi lo h
  refine ⟨toNat_bits w hi lo h, (bits w hi lo h).isLt, toNat_bits_full w, ?_⟩
  rintro rfl
  exact toNat_bits_single w hi h

/-- A word whose opcode no category matches is no instruction, whatever else it holds (rule R74). -/
theorem decodeWith_of_classify_unknown {c : Codes} {w : Word} (h : classify c (opcodeOf w) = .unknown) :
    decodeWith c w = .unknown .opcode := by
  rw [decodeWith, h]

namespace Machine

/-- Executing a word that is no instruction has the effect of its unknown case (rule R62). -/
theorem execute_of_decode_unknown {w : Word} {s : State} {u : Unknown}
    (h : decodeWith s.cfg.codes w = .unknown u) : execute w s = execUnknown u s := by
  rw [execute, h]

theorem execUnknown_opcode (s : State) : execUnknown .opcode s = .next (s.reported .unknownOpcode) :=
  runCycle_reportOnly s .unknownOpcode

/-- Settles O26: such a word decodes to the unknown opcode, whose cycle only reports. -/
theorem unknownOpcodeOnlyReports : Obligations.UnknownOpcodeOnlyReports := by
  intro s w h
  have noInstr := decodeWith_of_classify_unknown h
  exact ⟨s.reported .unknownOpcode, (execute_of_decode_unknown noInstr).trans (execUnknown_opcode s),
    s.reported_spec .unknownOpcode⟩

end Machine

end Sys2Proof
end

section
/-! PROOFS. The register-op family: its words and its instructions correspond one to one, each of its ten ALU
instructions writes one register, and its unknown function codes only report (rules R89 to R99, R101). -/

namespace Sys2Proof

/-- The category an instruction's words are classified in (rules R55, R72). -/
def Instr.category : Instr → Category
  | .add _ _ _ _ | .addu _ _ _ _ | .sub _ _ _ _ | .subu _ _ _ _ | .and _ _ _ _ | .or _ _ _ _
  | .xor _ _ _ _ | .nor _ _ _ _ | .slt _ _ _ _ | .sltu _ _ _ _ | .syscall _ => .registerOp
  | .addi _ _ _ | .addiu _ _ _ | .slti _ _ _ | .sltiu _ _ _ | .andi _ _ _ | .ori _ _ _ | .xori _ _ _
  | .lui _ _ _ => .immediateAlu
  | .lb _ _ _ | .lh _ _ _ | .lw _ _ _ | .lbu _ _ _ | .lhu _ _ _ => .load
  | .sb _ _ _ | .sh _ _ _ | .sw _ _ _ => .store

/-- A word that decodes to an instruction is classified in the instruction's category (rule R73): every test of the
category's dispatch leads to an instruction of it or to the next test. -/
theorem classify_of_decodeWith {c : Codes} {w : Word} {i : Instr} (h : decodeWith c w = .instr i) :
    classify c (opcodeOf w) = i.category := by
  unfold decodeWith at h
  split at h <;> rename_i hc <;> rw [hc]
  case h_5 => cases h
  all_goals
    simp only [decodeRegister, decodeImmediate, decodeLoad, decodeStore] at h
    repeat
      obtain ⟨-, ⟨⟩⟩ | ⟨-, h⟩ := ite_eq_iff.1 h
      · rfl
    cases h

/-- Only opcode 0 is classified as a register operation (rule R72). -/
theorem classify_eq_registerOp_iff (c : Codes) (op : BitVec 6) :
    classify c op = .registerOp ↔ op = registerOpcode := by
  unfold classify
  repeat' split
  all_goals simp_all

/-- A register-op word is the word of the instruction it decodes to: no bit is dropped. -/
theorem encodeWith_of_decodeRegister {c : Codes} {w : Word} {i : Instr} (hop : opcodeOf w = registerOpcode)
    (h : decodeRegister c w = .instr i) : encodeWith c i = w := by
  have fields := assembleR_of_fields w hop
  unfold decodeRegister at h
  obtain ⟨hfn, ⟨⟩⟩ | ⟨-, h⟩ := ite_eq_iff.1 h
  · exact assembleSyscall_of_fields w hop hfn
  iterate 10
    obtain ⟨hfn, ⟨⟩⟩ | ⟨-, h⟩ := ite_eq_iff.1 h
    · rwa [hfn] at fields
  cases h

/-- A register operation is decoded from its own word, when no two of them share a function code. -/
theorem decodeRegister_encodeWith {c : Codes} (distinct : c.functsDistinct = true) {i : Instr}
    (family : i.category = .registerOp) : decodeRegister c (encodeWith c i) = .instr i := by
  have nodup : c.functs.Nodup := of_decide_eq_true distinct
  simp only [Codes.functs, List.nodup_cons, List.mem_cons, List.not_mem_nil, not_or, or_false] at nodup
  cases i <;> simp only [Instr.category, reduceCtorEq] at family
  all_goals
    simp only [encodeWith, decodeRegister, functOf_assembleR, functOf_assembleSyscall, rsOf_assembleR,
      rtOf_assembleR, rdOf_assembleR, shamtOf_assembleR, middleOf_assembleSyscall]
    -- The earlier tests of the dispatch fail, the function codes being distinct; the instruction's own succeeds.
    grind -ext

/-- The R-layout mask of the opcode table tells exactly the opcode and the function code (rules R51, R60). -/
theorem mask_eq_iff_codes (w : Word) (fn : BitVec 6) :
    w &&& 0xFC00003F = registerOpcode ++ (0 : BitVec 20) ++ fn ↔ opcodeOf w = registerOpcode ∧ functOf w = fn := by
  constructor
  · intro h
    obtain ⟨hop, hfn⟩ := codes_of_mask w _ h
    obtain ⟨rowOp, rowFn⟩ := codes_of_mask _ _ (mask_assembleR 0 0 0 0 fn)
    rw [hop, hfn, ← rowOp, ← rowFn]
    exact ⟨opcodeOf_assembleR .., functOf_assembleR ..⟩
  · rintro ⟨hop, rfl⟩
    have row := mask_assembleR (rsOf w) (rtOf w) (rdOf w) (shamtOf w) (functOf w)
    rwa [assembleR_of_fields w hop] at row

theorem opcodeOf_encodeWith_register {c : Codes} {i : Instr} (family : i.category = .registerOp) :
    opcodeOf (encodeWith c i) = registerOpcode := by
  cases i <;> simp only [Instr.category, reduceCtorEq] at family
  case syscall => exact opcodeOf_assembleSyscall _
  all_goals exact opcodeOf_assembleR ..

/-- The words of a register operation are its encodings and no others. -/
theorem decodeWith_eq_register_iff {c : Codes} (distinct : c.functsDistinct = true) {i : Instr}
    (family : i.category = .registerOp) (w : Word) : decodeWith c w = .instr i ↔ encodeWith c i = w := by
  constructor
  · intro h
    have hop : opcodeOf w = registerOpcode :=
      (classify_eq_registerOp_iff c _).1 ((classify_of_decodeWith h).trans family)
    rw [decodeWith_register c w hop] at h
    exact encodeWith_of_decodeRegister hop h
  · rintro rfl
    rw [decodeWith_register c _ (opcodeOf_encodeWith_register family)]
    exact decodeRegister_encodeWith distinct family

theorem functsDistinct_mipsI : Codes.mipsI.functsDistinct = true := by decide

/-- A function code outside the eleven numbers of rule R60 is none of the default table's. -/
theorem not_mem_functs_mipsI {fn : BitVec 6} (h : fn.toNat ∉ [12, 32, 33, 34, 35, 36, 37, 38, 39, 42, 43]) :
    fn ∉ Codes.mipsI.functs :=
  fun hmem => h (List.mem_map_of_mem (f := BitVec.toNat) hmem)

namespace Machine

/-- An R-layout instruction has the words of its row of the opcode table, its fields where rule R51 puts them. -/
theorem decodesAsR_of_encode (mk : RegIdx → RegIdx → RegIdx → BitVec 5 → Instr) (fn : BitVec 6)
    (family : ∀ rd rs rt sh, (mk rd rs rt sh).category = .registerOp := by intros; rfl)
    (word : ∀ rd rs rt sh, encode (mk rd rs rt sh) = assembleR rs rt rd sh fn := by intros; rfl) :
    DecodesAsR (registerOpcode ++ (0 : BitVec 20) ++ fn) mk := by
  intro w
  constructor
  · intro h
    obtain ⟨hop, rfl⟩ := (mask_eq_iff_codes w fn).1 h
    exact (decodeWith_eq_register_iff functsDistinct_mipsI (family ..) w).2
      ((word ..).trans (assembleR_of_fields w hop))
  · intro rd rs rt sh h
    have hw : encode (mk rd rs rt sh) = w :=
      (decodeWith_eq_register_iff functsDistinct_mipsI (family ..) w).1 h
    rw [← hw, word]
    exact mask_assembleR rs rt rd sh fn

/-- An instruction whose cycle is the register-register form of an operation computing `f` writes `f` of its two
sources and nothing else (rule R89). -/
theorem registerForm_of_registerAlu {mk : RegIdx → RegIdx → RegIdx → BitVec 5 → Instr} {f : Word → Word → Word}
    (op : AluOp) (computes : ∀ a b, alu op a b = f a b)
    (runs : ∀ s rd rs rt sh, exec (mk rd rs rt sh) s = runCycle s (registerAlu op rd rs rt) := by intros; rfl) :
    RegisterForm mk f := by
  intro s rd rs rt sh
  refine ⟨s.wrote rd (f (s.reg rs) (s.reg rt)), ?_, s.wrote_spec rd _⟩
  rw [runs, runCycle_registerAlu, computes]

/-- Settles O13: the row of each by `decodesAsR_of_encode`, the effect by the register-register form of ADD. -/
theorem registerAddition : Obligations.RegisterAddition :=
  ⟨decodesAsR_of_encode .add Codes.mipsI.fnAdd, decodesAsR_of_encode .addu Codes.mipsI.fnAddu,
    registerForm_of_registerAlu .add (fun _ _ => rfl), registerForm_of_registerAlu .add (fun _ _ => rfl)⟩

/-- Settles O15: as for addition, with AND, OR, XOR and NOR. -/
theorem registerLogic : Obligations.RegisterLogic :=
  ⟨decodesAsR_of_encode .and Codes.mipsI.fnAnd, decodesAsR_of_encode .or Codes.mipsI.fnOr,
    decodesAsR_of_encode .xor Codes.mipsI.fnXor, decodesAsR_of_encode .nor Codes.mipsI.fnNor,
    registerForm_of_registerAlu .and (fun _ _ => rfl), registerForm_of_registerAlu .or (fun _ _ => rfl),
    registerForm_of_registerAlu .xor (fun _ _ => rfl), registerForm_of_registerAlu .nor (fun _ _ => rfl)⟩

/-- Settles O16: as for addition, with the two comparisons by value (`lessSigned_eq`, `lessUnsigned_eq`). -/
theorem registerComparison : Obligations.RegisterComparison :=
  ⟨decodesAsR_of_encode .slt Codes.mipsI.fnSlt, decodesAsR_of_encode .sltu Codes.mipsI.fnSltu,
    registerForm_of_registerAlu .slt lessSigned_eq, registerForm_of_registerAlu .sltu lessUnsigned_eq⟩

theorem execUnknown_funct (s : State) : execUnknown .funct s = .next (s.reported .unknownFunct) :=
  runCycle_reportOnly s .unknownFunct

/-- Settles O27: such a word decodes to the unknown function code, whose cycle only reports. -/
theorem unknownFunctOnlyReports : Obligations.UnknownFunctOnlyReports := by
  intro s w hcodes hop hfn
  have noInstr : decodeWith s.cfg.codes w = .unknown .funct := by
    rw [hcodes, decodeWith_register _ w hop]
    exact (decodeRegister_unknown_iff _ w _).2 ⟨rfl, not_mem_functs_mipsI hfn⟩
  exact ⟨s.reported .unknownFunct, (execute_of_decode_unknown noInstr).trans (execUnknown_funct s),
    s.reported_spec .unknownFunct⟩

end Machine

end Sys2Proof
end

section
/-! PROOFS. The immediate-ALU family: its words and its instructions correspond one to one, and each of its
arithmetic, logic and upper-half instructions writes one register (rules R110 to R118). -/

namespace Sys2Proof

/-- The I-layout mask of the opcode table tells exactly the opcode (rule R52). -/
theorem mask_eq_iff_opcode (w : Word) (op : BitVec 6) :
    w &&& 0xFC000000 = op ++ (0 : BitVec 26) ↔ opcodeOf w = op := by
  constructor
  · intro h
    have row := opcodeOf_of_mask _ _ (mask_assembleI op 0 0 0)
    rw [opcodeOf_of_mask w _ h, ← row]
    exact opcodeOf_assembleI ..
  · rintro rfl
    have row := mask_assembleI (opcodeOf w) (rsOf w) (rtOf w) (immOf w)
    rwa [assembleI_of_fields w] at row

/-- The immediate-ALU opcodes are the eight of the table, but for the register operations' (rule R72). -/
theorem classify_eq_immediateAlu_iff (c : Codes) (op : BitVec 6) :
    classify c op = .immediateAlu ↔ op ≠ registerOpcode ∧ op ∈ c.immOps := by
  unfold classify
  repeat' split
  all_goals simp_all

/-- Among the immediate opcodes, the `subop` bits name the opcode (rule R56). -/
theorem eq_of_subopOf_eq {c : Codes} (distinct : c.immSubopsDistinct = true) {op op' : BitVec 6}
    (h : op ∈ c.immOps) (h' : op' ∈ c.immOps) (same : subopOf op = subopOf op') : op = op' :=
  List.inj_on_of_nodup_map (of_decide_eq_true distinct) h h' same

/-- An immediate-ALU word is the word of the instruction it decodes to: no bit is dropped. -/
theorem encodeWith_of_decodeImmediate {c : Codes} (distinct : c.immSubopsDistinct = true) {w : Word} {i : Instr}
    (hop : opcodeOf w ∈ c.immOps) (h : decodeImmediate c w = .instr i) : encodeWith c i = w := by
  have fields := assembleI_of_fields w
  unfold decodeImmediate at h
  rw [wordSubop_eq_subopOf] at h
  iterate 8
    obtain ⟨hsub, ⟨⟩⟩ | ⟨-, h⟩ := ite_eq_iff.1 h
    · rwa [eq_of_subopOf_eq distinct hop (by simp [Codes.immOps]) hsub] at fields
  cases h

/-- An immediate-ALU instruction is decoded from its own word, when the `subop` bits tell the eight apart. -/
theorem decodeImmediate_encodeWith {c : Codes} (distinct : c.immSubopsDistinct = true) {i : Instr}
    (family : i.category = .immediateAlu) : decodeImmediate c (encodeWith c i) = .instr i := by
  have nodup : (c.immOps.map subopOf).Nodup := of_decide_eq_true distinct
  simp only [Codes.immOps, List.map_cons, List.map_nil, List.nodup_cons, List.mem_cons, List.not_mem_nil, not_or,
    or_false] at nodup
  cases i <;> simp only [Instr.category, reduceCtorEq] at family
  all_goals
    simp only [encodeWith, decodeImmediate, wordSubop_eq_subopOf, opcodeOf_assembleI, rsOf_assembleI,
      rtOf_assembleI, immOf_assembleI]
    -- The earlier tests of the dispatch fail, the `subop` bits being distinct; the instruction's own succeeds.
    grind -ext

theorem opcodeOf_encodeWith_immediate {c : Codes} {i : Instr} (family : i.category = .immediateAlu) :
    opcodeOf (encodeWith c i) ∈ c.immOps := by
  cases i <;> simp only [Instr.category, reduceCtorEq] at family
  all_goals
    rw [encodeWith, opcodeOf_assembleI]
    simp [Codes.immOps]

/-- The words of an immediate-ALU instruction are its encodings and no others. -/
theorem decodeWith_eq_immediate_iff {c : Codes} (distinct : c.immSubopsDistinct = true)
    (disjoint : registerOpcode ∉ c.immOps) {i : Instr} (family : i.category = .immediateAlu) (w : Word) :
    decodeWith c w = .instr i ↔ encodeWith c i = w := by
  constructor
  · intro h
    have hclass : classify c (opcodeOf w) = .immediateAlu := (classify_of_decodeWith h).trans family
    obtain ⟨-, hop⟩ := (classify_eq_immediateAlu_iff c _).1 hclass
    rw [decodeWith, hclass] at h
    exact encodeWith_of_decodeImmediate distinct hop h
  · rintro rfl
    have hop := opcodeOf_encodeWith_immediate (c := c) family
    have hclass := (classify_eq_immediateAlu_iff c _).2 ⟨ne_of_mem_of_not_mem hop disjoint, hop⟩
    rw [decodeWith, hclass]
    exact decodeImmediate_encodeWith distinct family

/-- The same under the default table, whose eight numbers are 8 to 15. -/
theorem decode_eq_immediate_iff {i : Instr} (family : i.category = .immediateAlu) (w : Word) :
    decode w = .instr i ↔ encode i = w :=
  decodeWith_eq_immediate_iff (by decide) (by decide) family w

namespace Machine

/-- An I-layout instruction whose words are its encodings has the words of its row of the opcode table, its fields
where rule R52 puts them. -/
theorem decodesAsI_of_encode (mk : RegIdx → RegIdx → Imm16 → Instr) (op : BitVec 6)
    (words : ∀ rt rs imm w, decode w = .instr (mk rt rs imm) ↔ encode (mk rt rs imm) = w)
    (word : ∀ rt rs imm, encode (mk rt rs imm) = assembleI op rs rt imm := by intros; rfl) :
    DecodesAsI (op ++ (0 : BitVec 26)) mk := by
  intro w
  constructor
  · intro h
    obtain rfl := (mask_eq_iff_opcode w op).1 h
    exact (words ..).2 ((word ..).trans (assembleI_of_fields w))
  · intro rt rs imm h
    rw [← (words ..).1 h, word]
    exact mask_assembleI op rs rt imm

/-- The two operand orders of the I layout differ in nothing else. -/
theorem decodesAsL_of_decodesAsI {value : Word} {mk : RegIdx → Imm16 → RegIdx → Instr}
    (h : DecodesAsI value fun rt rs imm => mk rt imm rs) : DecodesAsL value mk :=
  fun w => ⟨(h w).1, fun rt imm rs => (h w).2 rt rs imm⟩

/-- An instruction whose cycle leaves `f` of its source and immediate written to rt writes that and nothing else
(rule R110). -/
theorem immediateForm_of_wrote {mk : RegIdx → RegIdx → Imm16 → Instr} {f : Word → Imm16 → Word}
    (runs : ∀ s rt rs imm, exec (mk rt rs imm) s = .next (s.wrote rt (f (s.reg rs) imm))) : ImmediateForm mk f :=
  fun s rt rs imm => ⟨s.wrote rt (f (s.reg rs) imm), runs s rt rs imm, s.wrote_spec rt _⟩

/-- Settles O18: the row of each by `decodesAsI_of_encode`, the effect by the sign-extending form of ADD. -/
theorem immediateArithmetic : Obligations.ImmediateArithmetic :=
  ⟨decodesAsI_of_encode .addi Codes.mipsI.opAddi fun _ _ _ => decode_eq_immediate_iff rfl,
    decodesAsI_of_encode .addiu Codes.mipsI.opAddiu fun _ _ _ => decode_eq_immediate_iff rfl,
    immediateForm_of_wrote fun s => runCycle_signedImmediateAlu s .add,
    immediateForm_of_wrote fun s => runCycle_signedImmediateAlu s .add⟩

/-- Settles O20: as for arithmetic, with the zero-extending form of AND, OR and XOR. -/
theorem immediateLogic : Obligations.ImmediateLogic :=
  ⟨decodesAsI_of_encode .andi Codes.mipsI.opAndi fun _ _ _ => decode_eq_immediate_iff rfl,
    decodesAsI_of_encode .ori Codes.mipsI.opOri fun _ _ _ => decode_eq_immediate_iff rfl,
    decodesAsI_of_encode .xori Codes.mipsI.opXori fun _ _ _ => decode_eq_immediate_iff rfl,
    immediateForm_of_wrote fun s => runCycle_zeroImmediateAlu s .and,
    immediateForm_of_wrote fun s => runCycle_zeroImmediateAlu s .or,
    immediateForm_of_wrote fun s => runCycle_zeroImmediateAlu s .xor⟩

/-- `lui` writes its immediate to the upper half of rt, whatever the state (rule R118). -/
theorem exec_lui (s : State) (rt rs : RegIdx) (imm : Imm16) :
    exec (.lui rt imm rs) s = .next (s.wrote rt (imm ++ (0 : BitVec 16))) := by
  rw [← upperHalf_zext32]
  exact runCycle_aluInto s rt .lui (fun _ => 0) fun _ => zext32 imm

/-- Settles O21: the row by `decodesAsI_of_encode`, the operands reordered; the effect by `exec_lui`. -/
theorem loadUpperImmediate : Obligations.LoadUpperImmediate :=
  ⟨decodesAsL_of_decodesAsI
      (decodesAsI_of_encode _ Codes.mipsI.opLui fun _ _ _ => decode_eq_immediate_iff rfl),
    fun s rt rs imm => ⟨s.wrote rt (imm ++ (0 : BitVec 16)), exec_lui s rt rs imm, s.wrote_spec rt _⟩⟩

end Machine

end Sys2Proof
end

section
/-! PROOFS. The load and store families' words, and with them the whole code: under a well-formed table the words
that decode to an instruction are its encoding and no other (rules R50, R73), and which words are no instruction. -/

namespace Sys2Proof

/-- The load opcodes are those of the table, but for the register operations' and the immediate ones' (rule R72). -/
theorem classify_eq_load_iff (c : Codes) (op : BitVec 6) :
    classify c op = .load ↔ op ≠ registerOpcode ∧ op ∉ c.immOps ∧ op ∈ c.loadOps := by
  unfold classify
  repeat' split
  all_goals simp_all

/-- The store opcodes likewise, after the loads' (rule R72). -/
theorem classify_eq_store_iff (c : Codes) (op : BitVec 6) :
    classify c op = .store ↔ op ≠ registerOpcode ∧ op ∉ c.immOps ∧ op ∉ c.loadOps ∧ op ∈ c.storeOps := by
  unfold classify
  repeat' split
  all_goals simp_all

/-- Every opcode falls in one category (rule R55), as propositions. -/
theorem Codes.categoriesDisjoint_iff (c : Codes) : c.categoriesDisjoint = true ↔
    registerOpcode ∉ c.immOps ∧ (∀ op ∈ c.loadOps, op ≠ registerOpcode ∧ op ∉ c.immOps) ∧
      ∀ op ∈ c.storeOps, op ≠ registerOpcode ∧ op ∉ c.immOps ∧ op ∉ c.loadOps := by
  simp [Codes.categoriesDisjoint, and_assoc]

/-- A reserved load differs from the word load in bits 28:26 (rule R56). -/
theorem subopOf_ne_opLw {c : Codes} (distinct : c.loadSubopsDistinct = true) {op : BitVec 6}
    (h : op ∈ c.loadReserved) : subopOf op ≠ subopOf c.opLw :=
  bne_iff_ne.1 (List.all_eq_true.1 distinct op h)

/-- A reserved store differs from the word store in bits 28:26 (rule R56). -/
theorem subopOf_ne_opSw {c : Codes} (distinct : c.storeSubopsDistinct = true) {op : BitVec 6}
    (h : op ∈ c.storeReserved) : subopOf op ≠ subopOf c.opSw :=
  bne_iff_ne.1 (List.all_eq_true.1 distinct op h)

/-- In a category whose reserved opcodes differ from the word access's in the `subop` bits, those bits tell the word
access from the reserved ones. -/
theorem eq_or_mem_of_subop {word op : BitVec 6} {reserved : List (BitVec 6)} (hop : op ∈ word :: reserved)
    (distinct : op ∈ reserved → subopOf op ≠ subopOf word) :
    (subopOf op = subopOf word ∧ op = word) ∨ (subopOf op ≠ subopOf word ∧ op ∈ reserved) := by
  rcases List.mem_cons.1 hop with rfl | h
  · exact .inl ⟨rfl, rfl⟩
  · exact .inr ⟨distinct h, h⟩

/-- A load word is the word of the instruction it decodes to, and the instruction exists. -/
theorem encodeWith_of_decodeLoad {c : Codes} (distinct : c.loadSubopsDistinct = true) {w : Word} {i : Instr}
    (hop : opcodeOf w ∈ c.loadOps) (h : decodeLoad c w = .instr i) : i.wellFormed c = true ∧ encodeWith c i = w := by
  have fields := assembleI_of_fields w
  unfold decodeLoad at h
  rw [wordSubop_eq_subopOf] at h
  obtain ⟨hsub, hlw⟩ | ⟨hsub, hres⟩ := eq_or_mem_of_subop hop (subopOf_ne_opLw distinct)
  · rw [if_pos hsub] at h
    obtain ⟨⟩ := h
    rw [hlw] at fields
    exact ⟨rfl, fields⟩
  · rw [if_neg hsub] at h
    iterate 4
      obtain ⟨hname, ⟨⟩⟩ | ⟨-, h⟩ := ite_eq_iff.1 h
      · rw [hname] at hres fields
        exact ⟨List.contains_iff_mem.2 hres, fields⟩
    cases h

/-- A store word is the word of the instruction it decodes to, and the instruction exists. -/
theorem encodeWith_of_decodeStore {c : Codes} (distinct : c.storeSubopsDistinct = true) {w : Word} {i : Instr}
    (hop : opcodeOf w ∈ c.storeOps) (h : decodeStore c w = .instr i) : i.wellFormed c = true ∧ encodeWith c i = w := by
  have fields := assembleI_of_fields w
  unfold decodeStore at h
  rw [wordSubop_eq_subopOf] at h
  obtain ⟨hsub, hsw⟩ | ⟨hsub, hres⟩ := eq_or_mem_of_subop hop (subopOf_ne_opSw distinct)
  · rw [if_pos hsub] at h
    obtain ⟨⟩ := h
    rw [hsw] at fields
    exact ⟨rfl, fields⟩
  · rw [if_neg hsub] at h
    iterate 2
      obtain ⟨hname, ⟨⟩⟩ | ⟨-, h⟩ := ite_eq_iff.1 h
      · rw [hname] at hres fields
        exact ⟨List.contains_iff_mem.2 hres, fields⟩
    cases h

theorem opcodeOf_encodeWith_load {c : Codes} {i : Instr} (family : i.category = .load)
    (present : i.wellFormed c = true) : opcodeOf (encodeWith c i) ∈ c.loadOps := by
  cases i <;> simp only [Instr.category, reduceCtorEq] at family
  all_goals
    rw [encodeWith, opcodeOf_assembleI, Codes.loadOps]
    simp_all [Instr.wellFormed]

theorem opcodeOf_encodeWith_store {c : Codes} {i : Instr} (family : i.category = .store)
    (present : i.wellFormed c = true) : opcodeOf (encodeWith c i) ∈ c.storeOps := by
  cases i <;> simp only [Instr.category, reduceCtorEq] at family
  all_goals
    rw [encodeWith, opcodeOf_assembleI, Codes.storeOps]
    simp_all [Instr.wellFormed]

/-- A load is decoded from its own word, when the word load has `subop` bits and the reserved ones names of their
own. -/
theorem decodeLoad_encodeWith {c : Codes} (distinct : c.loadSubopsDistinct = true) (named : c.reservedDistinct = true)
    {i : Instr} (family : i.category = .load) (present : i.wellFormed c = true) :
    decodeLoad c (encodeWith c i) = .instr i := by
  simp only [Codes.reservedDistinct, Bool.and_eq_true, decide_eq_true_eq, List.nodup_cons, List.mem_cons,
    List.not_mem_nil, not_or, or_false] at named
  cases i <;> simp only [Instr.category, reduceCtorEq] at family
  case lw => simp [encodeWith, decodeLoad, wordSubop_eq_subopOf]
  all_goals
    have reserved := subopOf_ne_opLw distinct (List.contains_iff_mem.1 present)
    simp only [encodeWith, decodeLoad, wordSubop_eq_subopOf, opcodeOf_assembleI, rsOf_assembleI, rtOf_assembleI,
      immOf_assembleI, if_neg reserved]
    -- The tests for the other reserved loads fail, their names being distinct.
    grind -ext

/-- A store is decoded from its own word, likewise. -/
theorem decodeStore_encodeWith {c : Codes} (distinct : c.storeSubopsDistinct = true)
    (named : c.reservedDistinct = true) {i : Instr} (family : i.category = .store)
    (present : i.wellFormed c = true) : decodeStore c (encodeWith c i) = .instr i := by
  simp only [Codes.reservedDistinct, Bool.and_eq_true, decide_eq_true_eq, List.nodup_cons, List.mem_cons,
    List.not_mem_nil, not_or, or_false] at named
  cases i <;> simp only [Instr.category, reduceCtorEq] at family
  case sw => simp [encodeWith, decodeStore, wordSubop_eq_subopOf]
  all_goals
    have reserved := subopOf_ne_opSw distinct (List.contains_iff_mem.1 present)
    simp only [encodeWith, decodeStore, wordSubop_eq_subopOf, opcodeOf_assembleI, rsOf_assembleI, rtOf_assembleI,
      immOf_assembleI, if_neg reserved]
    grind -ext

/-- The register operations and the immediate-ALU instructions exist under every table (rule R62). -/
theorem Instr.wellFormed_of_category {c : Codes} {i : Instr} (hload : i.category ≠ .load)
    (hstore : i.category ≠ .store) : i.wellFormed c = true := by
  cases i <;> simp only [Instr.category, ne_eq, reduceCtorEq, not_true_eq_false] at hload hstore <;> rfl

/-- Under a well-formed table a word decodes to an instruction exactly when the instruction exists and the word is its
encoding. -/
theorem decodeWith_eq_instr_iff {c : Codes} (wf : c.wellFormed = true) (i : Instr) (w : Word) :
    decodeWith c w = .instr i ↔ i.wellFormed c = true ∧ encodeWith c i = w := by
  simp only [Codes.wellFormed, Bool.and_eq_true] at wf
  obtain ⟨⟨⟨⟨⟨functs, imms⟩, loads⟩, stores⟩, disjoint⟩, named⟩ := wf
  obtain ⟨immDisjoint, loadDisjoint, storeDisjoint⟩ := c.categoriesDisjoint_iff.1 disjoint
  cases family : i.category with
  | registerOp =>
    rw [i.wellFormed_of_category (by simp [family]) (by simp [family])]
    simpa using decodeWith_eq_register_iff functs family w
  | immediateAlu =>
    rw [i.wellFormed_of_category (by simp [family]) (by simp [family])]
    simpa using decodeWith_eq_immediate_iff imms immDisjoint family w
  | load =>
    constructor
    · intro h
      have hclass := (classify_of_decodeWith h).trans family
      rw [decodeWith, hclass] at h
      exact encodeWith_of_decodeLoad loads ((classify_eq_load_iff c _).1 hclass).2.2 h
    · rintro ⟨present, rfl⟩
      have hop := opcodeOf_encodeWith_load family present
      obtain ⟨notRegister, notImm⟩ := loadDisjoint _ hop
      rw [decodeWith, (classify_eq_load_iff c _).2 ⟨notRegister, notImm, hop⟩]
      exact decodeLoad_encodeWith loads named family present
  | store =>
    constructor
    · intro h
      have hclass := (classify_of_decodeWith h).trans family
      rw [decodeWith, hclass] at h
      exact encodeWith_of_decodeStore stores ((classify_eq_store_iff c _).1 hclass).2.2.2 h
    · rintro ⟨present, rfl⟩
      have hop := opcodeOf_encodeWith_store family present
      obtain ⟨notRegister, notImm, notLoad⟩ := storeDisjoint _ hop
      rw [decodeWith, (classify_eq_store_iff c _).2 ⟨notRegister, notImm, notLoad, hop⟩]
      exact decodeStore_encodeWith stores named family present
  | unknown => cases i <;> cases family

/-- Settles O5: the encoding of an instruction is one of the words that decode to it. -/
theorem decodeAfterEncode : Obligations.DecodeAfterEncode :=
  fun _ i wf present => (decodeWith_eq_instr_iff wf i _).2 ⟨present, rfl⟩

/-- Settles O6: the encoding of an instruction is the only word that decodes to it. -/
theorem encodeAfterDecode : Obligations.EncodeAfterDecode :=
  fun _ w i wf h => (decodeWith_eq_instr_iff wf i w).1 h

end Sys2Proof
end

section
/-! PROOFS. What a word's cycle is, in one normal form: the access it must be admitted and the state it leaves. Every
instruction and every unknown case is one of six kinds of work, and the registers it uses, the access it makes and
what it leaves are read off that kind. -/

namespace Sys2Proof.Machine

/-- An ALU operand: a register of CURRENT, or a constant of the word. -/
inductive Operand where
  | register (r : RegIdx)
  | constant (v : Word)

def Operand.value : Operand → State → Word
  | .register r, s => s.reg r
  | .constant v, _ => v

def Operand.sources : Operand → List RegIdx
  | .register r => [r]
  | .constant _ => []

/-- The kinds of work a cycle can do. -/
inductive Work where
  | compute (d : RegIdx) (op : AluOp) (a b : Operand)
  | report (k : Diag)
  | exit
  | load (rt : RegIdx) (imm : Imm16) (rs : RegIdx)
  | discard (imm : Imm16) (rs : RegIdx)
  | store (rt : RegIdx) (imm : Imm16) (rs : RegIdx)

/-- The work of each word (rules R74, R90 to R100, R111 to R118, R126 to R131, R136 to R139). -/
def workOf : Decoded → Work
  | .instr (.add rd rs rt _) => .compute rd .add (.register rs) (.register rt)
  | .instr (.addu rd rs rt _) => .compute rd .add (.register rs) (.register rt)
  | .instr (.sub rd rs rt _) => .compute rd .sub (.register rs) (.register rt)
  | .instr (.subu rd rs rt _) => .compute rd .sub (.register rs) (.register rt)
  | .instr (.and rd rs rt _) => .compute rd .and (.register rs) (.register rt)
  | .instr (.or rd rs rt _) => .compute rd .or (.register rs) (.register rt)
  | .instr (.xor rd rs rt _) => .compute rd .xor (.register rs) (.register rt)
  | .instr (.nor rd rs rt _) => .compute rd .nor (.register rs) (.register rt)
  | .instr (.slt rd rs rt _) => .compute rd .slt (.register rs) (.register rt)
  | .instr (.sltu rd rs rt _) => .compute rd .sltu (.register rs) (.register rt)
  | .instr (.syscall _) => .exit
  | .instr (.addi rt rs imm) => .compute rt .add (.register rs) (.constant (sext32 imm))
  | .instr (.addiu rt rs imm) => .compute rt .add (.register rs) (.constant (sext32 imm))
  | .instr (.slti rt rs imm) => .compute rt .slt (.register rs) (.constant (sext32 imm))
  | .instr (.sltiu rt rs imm) => .compute rt .sltu (.register rs) (.constant (sext32 imm))
  | .instr (.andi rt rs imm) => .compute rt .and (.register rs) (.constant (zext32 imm))
  | .instr (.ori rt rs imm) => .compute rt .or (.register rs) (.constant (zext32 imm))
  | .instr (.xori rt rs imm) => .compute rt .xor (.register rs) (.constant (zext32 imm))
  | .instr (.lui rt imm _) => .compute rt .lui (.constant 0) (.constant (zext32 imm))
  | .instr (.lw rt imm rs) => .load rt imm rs
  | .instr (.lb _ imm rs) => .discard imm rs
  | .instr (.lh _ imm rs) => .discard imm rs
  | .instr (.lbu _ imm rs) => .discard imm rs
  | .instr (.lhu _ imm rs) => .discard imm rs
  | .instr (.sw rt imm rs) => .store rt imm rs
  | .instr (.sb _ _ _) => .report .unknownStoreSubop
  | .instr (.sh _ _ _) => .report .unknownStoreSubop
  | .unknown .opcode => .report .unknownOpcode
  | .unknown .funct => .report .unknownFunct
  | .unknown .immSubop => .report .unknownImmSubop
  | .unknown (.loadSubop imm rs) => .discard imm rs
  | .unknown .storeSubop => .report .unknownStoreSubop

/-- What may refuse the work: its data access (rules R35, R36). -/
def Work.check : Work → State → Except Fault Unit
  | .load _ imm rs, s => s.checkAccess .load (s.address rs imm)
  | .discard imm rs, s => s.checkAccess .load (s.address rs imm)
  | .store _ imm rs, s => s.checkAccess .store (s.address rs imm)
  | _, _ => .ok ()

/-- The state the work leaves where nothing refuses it. -/
def Work.leaves : Work → State → State
  | .compute d op a b, s => s.wrote d (alu op (a.value s) (b.value s))
  | .report k, s => s.reported k
  | .exit, s => if s.reg 2 = 10 then s.beginCycle.clearRun.commit else s.reported .none
  | .load rt imm rs, s => s.wrote rt (s.wordAt (s.address rs imm))
  | .discard _ _, s => s.reported .unknownLoadSubop
  | .store rt imm rs, s => s.stored (s.address rs imm) (s.reg rt)

/-- The state the work leaves, or the fault of its refused access. -/
def Work.result (k : Work) (s : State) : Except Fault State := (k.check s).map fun _ => k.leaves s

theorem Work.result_ok_iff (k : Work) (s t : State) : k.result s = .ok t ↔ k.check s = .ok () ∧ t = k.leaves s := by
  unfold Work.result
  cases k.check s <;> simp [Except.map, eq_comm]

theorem Work.result_error_iff (k : Work) (s : State) (f : Fault) : k.result s = .error f ↔ k.check s = .error f := by
  unfold Work.result
  cases k.check s <;> simp [Except.map]

/-- A cycle's result as an outcome of the step: a next state or a fault, never a refusal. -/
def outcomeOf : Except Fault State → Host.Outcome State Fault Refusal
  | .ok t => .next t
  | .error f => .fault f

theorem outcomeOf_next_iff (r : Except Fault State) (t : State) : outcomeOf r = .next t ↔ r = .ok t := by
  cases r <;> simp [outcomeOf]

theorem outcomeOf_fault_iff (r : Except Fault State) (f : Fault) : outcomeOf r = .fault f ↔ r = .error f := by
  cases r <;> simp [outcomeOf]

theorem State.memRead_eq (s : State) (k : Access) (a : Word) :
    s.memRead k a = (s.checkAccess k a).map fun _ => s.wordAt a := by
  unfold State.memRead
  cases s.checkAccess k a <;> rfl

theorem State.memWrite_eq (s : State) (a v : Word) :
    s.memWrite a v = (s.checkAccess .store a).map fun _ => { s with mem := s.mem.setWord s.cfg.byteOrder a v } := by
  unfold State.memWrite
  cases s.checkAccess .store a <;> rfl

theorem runCycle_loadWord_eq (s : State) (rt : RegIdx) (imm : Imm16) (rs : RegIdx) :
    runCycle s (loadWord rt imm rs) = outcomeOf ((Work.load rt imm rs).result s) := by
  simp only [runCycle, loadWord, State.memRead_eq, State.address_beginCycle, State.checkAccess_beginCycle, Work.result,
    Work.check]
  cases s.checkAccess .load (s.address rs imm) <;> rfl

theorem runCycle_discardLoad_eq (s : State) (imm : Imm16) (rs : RegIdx) :
    runCycle s (discardLoad imm rs) = outcomeOf ((Work.discard imm rs).result s) := by
  simp only [runCycle, discardLoad, State.memRead_eq, State.address_beginCycle, State.checkAccess_beginCycle,
    Work.result, Work.check]
  cases s.checkAccess .load (s.address rs imm) <;> rfl

theorem runCycle_storeWord_eq (s : State) (rt : RegIdx) (imm : Imm16) (rs : RegIdx) :
    runCycle s (storeWord rt imm rs) = outcomeOf ((Work.store rt imm rs).result s) := by
  simp only [runCycle, storeWord, State.memWrite_eq, State.address_beginCycle, State.checkAccess_beginCycle,
    Work.result, Work.check]
  cases s.checkAccess .store (s.address rs imm) <;> rfl

theorem runCycle_exitIfAsked_eq (s : State) : runCycle s exitIfAsked = outcomeOf (Work.exit.result s) := by
  obtain ⟨h, hrun⟩ | ⟨h, hrun⟩ := runCycle_exitIfAsked s
  · simp only [hrun, Work.result, Work.check, Work.leaves, if_pos h]
    rfl
  · simp only [hrun, Work.result, Work.check, Work.leaves, if_neg h]
    rfl

/-- Every instruction does its work. -/
theorem exec_eq_result (i : Instr) (s : State) : exec i s = outcomeOf ((workOf (.instr i)).result s) := by
  cases i with
  | syscall => exact runCycle_exitIfAsked_eq s
  | lw rt imm rs => exact runCycle_loadWord_eq s rt imm rs
  | lb _ imm rs => exact runCycle_discardLoad_eq s imm rs
  | lh _ imm rs => exact runCycle_discardLoad_eq s imm rs
  | lbu _ imm rs => exact runCycle_discardLoad_eq s imm rs
  | lhu _ imm rs => exact runCycle_discardLoad_eq s imm rs
  | sw rt imm rs => exact runCycle_storeWord_eq s rt imm rs
  | _ => rfl

/-- So does every word that is no instruction. -/
theorem execUnknown_eq_result (u : Unknown) (s : State) :
    execUnknown u s = outcomeOf ((workOf (.unknown u)).result s) := by
  cases u with
  | loadSubop imm rs => exact runCycle_discardLoad_eq s imm rs
  | _ => rfl

/-- Executing a word does the work it decodes to. -/
theorem execute_eq_result (w : Word) (s : State) :
    execute w s = outcomeOf ((workOf (decodeWith s.cfg.codes w)).result s) := by
  unfold execute
  cases decodeWith s.cfg.codes w with
  | instr i => exact exec_eq_result i s
  | unknown u => exact execUnknown_eq_result u s

theorem execute_next_iff (w : Word) (s t : State) : execute w s = .next t ↔
    (workOf (decodeWith s.cfg.codes w)).check s = .ok () ∧ t = (workOf (decodeWith s.cfg.codes w)).leaves s := by
  rw [execute_eq_result, outcomeOf_next_iff, Work.result_ok_iff]

theorem execute_fault_iff (w : Word) (s : State) (f : Fault) :
    execute w s = .fault f ↔ (workOf (decodeWith s.cfg.codes w)).check s = .error f := by
  rw [execute_eq_result, outcomeOf_fault_iff, Work.result_error_iff]

/-- The registers a kind of work reads. -/
def Work.sources : Work → List RegIdx
  | .compute _ _ a b => a.sources ++ b.sources
  | .report _ => []
  | .exit => [2]
  | .load _ _ rs => [rs]
  | .discard _ rs => [rs]
  | .store rt _ rs => [rs, rt]

/-- The register a kind of work writes. -/
def Work.destination : Work → Option RegIdx
  | .compute d _ _ _ => some d
  | .load rt _ _ => some rt
  | _ => none

/-- The base and offset of the access a kind of work makes. -/
def Work.access : Work → Option (RegIdx × Imm16)
  | .load _ imm rs => some (rs, imm)
  | .discard imm rs => some (rs, imm)
  | .store _ imm rs => some (rs, imm)
  | _ => none

/-- The kind a cycle's work reports. -/
def Work.diag : Work → Diag
  | .report k => k
  | .discard _ _ => .unknownLoadSubop
  | _ => .none

/-- The table of register use (rule R12) names the registers of the word's work. -/
theorem sourceRegisters_eq (d : Decoded) : sourceRegisters d = (workOf d).sources := by
  cases d with
  | instr i => cases i <;> rfl
  | unknown u => cases u <;> rfl

theorem destinationRegister_eq (d : Decoded) : destinationRegister d = (workOf d).destination := by
  cases d with
  | instr i => cases i <;> rfl
  | unknown u => cases u <;> rfl

theorem dataAccess_eq (d : Decoded) : dataAccess d = (workOf d).access := by
  cases d with
  | instr i => cases i <;> rfl
  | unknown u => cases u <;> rfl

theorem Work.leaves_current_pc (k : Work) (s : State) : (k.leaves s).current.pc = s.cfg.nextPc s.current.pc := by
  cases k <;> simp only [Work.leaves]
  case exit => split <;> rfl
  all_goals rfl

theorem Work.leaves_diag (k : Work) (s : State) : (k.leaves s).diag = k.diag := by
  cases k <;> simp only [Work.leaves]
  case exit => split <;> rfl
  all_goals rfl

/-- Work leaves every register but its destination as it was. -/
theorem Work.leaves_reg_of_ne (k : Work) (s : State) (r : RegIdx) (h : k.destination ≠ some r) :
    (k.leaves s).reg r = s.reg r := by
  cases k <;> simp only [Work.leaves]
  case compute d _ _ _ => exact (s.wrote_spec d _).others r fun e => h (congrArg some e.symm)
  case load d _ _ => exact (s.wrote_spec d _).others r fun e => h (congrArg some e.symm)
  case exit => split <;> rfl
  all_goals rfl

end Sys2Proof.Machine
end

section
/-! PROOFS. The hardware of rules R25, R26 and R81 does the work of the word: the control table has nine kinds of row,
each beside the work it drives, and the datapath's result under each is that of the work. -/

namespace Sys2Proof.Machine

/-- The row of the control table that writes an ALU result to a register. -/
def aluControl (op : AluOp) (b : SourceB) (dest : Destination) : Control :=
  { inertControl .none with aluOp := some op, sourceB := b, dest := dest }

/-- The row that forms an effective address. -/
def addressControl : Control := { inertControl .none with aluOp := some .add, sourceB := .signedImm }

/-- The row of the control table on the left has the datapath do the work on the right for the word `w`. -/
inductive Drives (w : Word) : Control → Work → Prop where
  | register (op : AluOp) :
      Drives w (aluControl op .register .rd) (.compute (rdOf w) op (.register (rsOf w)) (.register (rtOf w)))
  | signed (op : AluOp) :
      Drives w (aluControl op .signedImm .rt) (.compute (rtOf w) op (.register (rsOf w)) (.constant (sext32 (immOf w))))
  | zero (op : AluOp) :
      Drives w (aluControl op .zeroImm .rt) (.compute (rtOf w) op (.register (rsOf w)) (.constant (zext32 (immOf w))))
  | upper :
      Drives w (aluControl .lui .zeroImm .rt) (.compute (rtOf w) .lui (.constant 0) (.constant (zext32 (immOf w))))
  | inert (k : Diag) : Drives w (inertControl k) (.report k)
  | exit : Drives w { inertControl .none with exit := true } .exit
  | load : Drives w { addressControl with read := true, dest := .rt, fromMemory := true }
      (.load (rtOf w) (immOf w) (rsOf w))
  | discard : Drives w { addressControl with read := true, diag := .unknownLoadSubop } (.discard (immOf w) (rsOf w))
  | store : Drives w { addressControl with write := true } (.store (rtOf w) (immOf w) (rsOf w))

/-- Looking a number up in a row table is a chain of tests. -/
theorem lookup_cons_ite {α β : Type} [BEq α] [LawfulBEq α] [DecidableEq α] (x a : α) (b : β) (rows : List (α × β)) :
    ((a, b) :: rows).lookup x = if x = a then some b else rows.lookup x := by
  by_cases h : x = a
  · rw [if_pos h, h, List.lookup_cons_self]
  · rw [if_neg h, List.lookup_cons, beq_false_of_ne h]

/-- One test of a dispatch, made alike by the control table and by the decoder. -/
theorem Drives.ite {w : Word} {p : Prop} [Decidable p] {k l : Control} {d e : Decoded}
    (yes : Drives w k (workOf d)) (no : Drives w l (workOf e)) :
    Drives w (if p then k else l) (workOf (if p then d else e)) := by
  by_cases h : p
  · rwa [if_pos h, if_pos h]
  · rwa [if_neg h, if_neg h]

/-- The row of a register-op word other than `syscall`, from the ALU operation its function code names. -/
def registerRow : Option AluOp → Control
  | some op => aluControl op .register .rd
  | none => inertControl .unknownFunct

/-- The row of an immediate-ALU word, from the ALU operation and extension its `subop` bits name. -/
def immediateRow : Option (AluOp × SourceB) → Control
  | some (op, b) => aluControl op b .rt
  | none => inertControl .unknownImmSubop

theorem registerControl_eq (c : Codes) (fn : BitVec 6) : registerControl c fn =
    if fn = syscallFunct then { inertControl .none with exit := true }
    else registerRow ((registerAluRows c).lookup fn) := by
  unfold registerControl registerRow
  cases (registerAluRows c).lookup fn <;> rfl

theorem immediateControl_eq (c : Codes) (sub : BitVec 3) :
    immediateControl c sub = immediateRow ((immediateAluRows c).lookup sub) := by
  unfold immediateControl immediateRow
  cases (immediateAluRows c).lookup sub <;> rfl

theorem drives_register (c : Codes) (w : Word) :
    Drives w (registerControl c (functOf w)) (workOf (decodeRegister c w)) := by
  rw [registerControl_eq, decodeRegister]
  simp only [registerAluRows, lookup_cons_ite, List.lookup_nil, apply_ite registerRow]
  refine .ite .exit ?_
  iterate 10 refine .ite (.register _) ?_
  exact .inert _

theorem drives_immediate (c : Codes) (w : Word) :
    Drives w (immediateControl c (wordSubop w)) (workOf (decodeImmediate c w)) := by
  rw [immediateControl_eq, decodeImmediate]
  simp only [immediateAluRows, lookup_cons_ite, List.lookup_nil, apply_ite immediateRow]
  iterate 4 refine .ite (.signed _) ?_
  iterate 3 refine .ite (.zero _) ?_
  exact .ite .upper (.inert _)

theorem drives_load (c : Codes) (w : Word) : Drives w (loadControl c (wordSubop w)) (workOf (decodeLoad c w)) := by
  refine .ite .load ?_
  repeat' split
  all_goals exact .discard

theorem drives_store (c : Codes) (w : Word) : Drives w (storeControl c (wordSubop w)) (workOf (decodeStore c w)) := by
  refine .ite .store ?_
  repeat' split
  all_goals exact .inert _

/-- The decoder's control outputs for a word drive the work it decodes to (rule R81), under every table. -/
theorem control_drives (c : Codes) (w : Word) : Drives w (control c w) (workOf (decodeWith c w)) := by
  unfold control decodeWith
  cases classify c (opcodeOf w) with
  | registerOp => exact drives_register c w
  | immediateAlu => exact drives_immediate c w
  | load => exact drives_load c w
  | store => exact drives_store c w
  | unknown => exact .inert _


/-- The access a row of the control table makes. -/
def Control.check (k : Control) (s : State) (w : Word) : Except Fault Unit :=
  if k.read then s.checkAccess .load (k.result s w)
  else if k.write then s.checkAccess .store (k.result s w)
  else .ok ()

/-- What the datapath latches under a row when its access is admitted. -/
def Control.latches (k : Control) (s : State) (w : Word) : State :=
  let data := if k.read then some (s.wordAt (k.result s w)) else none
  let n : Arch :=
    { regs := match k.destination w with
        | some d => s.current.regs.set d (k.writeBack s w data)
        | none => s.current.regs
      pc := s.cfg.nextPc s.current.pc }
  { s with
    current := n
    next := n
    run := if k.exit = true ∧ s.reg 2 = 10 then false else s.run
    mem := if k.write then s.mem.setWord s.cfg.byteOrder (k.result s w) (s.reg (rtOf w)) else s.mem
    diag := k.diag }

/-- The run flag falls where the row asks for exit and register 2, which its first read port then reads, holds 10. -/
theorem Control.run_and_not (k : Control) (s : State) (w : Word) :
    (s.run && !(k.exit && s.reg (k.readA w) == exitRequest)) =
      if k.exit = true ∧ s.reg 2 = 10 then false else s.run := by
  unfold Control.readA
  cases hexit : k.exit with
  | false => simp
  | true =>
    by_cases h : s.reg 2 = 10
    · simp [exitRegister, exitRequest, h]
    · have hne : (s.reg exitRegister == exitRequest) = false := beq_false_of_ne h
      rw [if_neg (not_and_of_not_right _ h), if_pos rfl, hne, Bool.and_false, Bool.not_false, Bool.and_true]

/-- The datapath checks the row's access and latches, the row making one access at most. -/
theorem datapath_eq (s : State) (w : Word)
    (one : (control s.cfg.codes w).read = false ∨ (control s.cfg.codes w).write = false) :
    datapath s w = ((control s.cfg.codes w).check s w).map fun _ => (control s.cfg.codes w).latches s w := by
  simp only [datapath, Control.check, Control.latches, Control.readData, Control.writeData, State.memRead_eq,
    State.memWrite_eq, Control.run_and_not]
  generalize control s.cfg.codes w = k at one ⊢
  cases hread : k.read with
  | true =>
    simp only [Bool.false_eq_true, if_false, if_true, one.resolve_left (by simp [hread])]
    cases s.checkAccess .load (k.result s w) <;> rfl
  | false =>
    cases hwrite : k.write with
    | false => rfl
    | true =>
      simp only [Bool.false_eq_true, if_false, if_true]
      cases s.checkAccess .store (k.result s w) <;> rfl

theorem Drives.check_eq {w : Word} {row : Control} {k : Work} (h : Drives w row k) (s : State) :
    row.check s w = k.check s := by
  cases h <;> rfl

/-- The `syscall` row latches what the exit leaves, asked for or not. -/
theorem Control.latches_exit (s : State) (w : Word) :
    ({ inertControl .none with exit := true } : Control).latches s w = Work.exit.leaves s := by
  by_cases hask : s.reg 2 = 10
  · simp only [Control.latches, Work.leaves, hask, and_self, if_true]
    rfl
  · simp only [Control.latches, Work.leaves, hask, and_false, if_false]
    rfl

theorem Drives.latches_eq {w : Word} {row : Control} {k : Work} (h : Drives w row k) (s : State) :
    row.latches s w = k.leaves s := by
  cases h
  case exit => exact Control.latches_exit s w
  all_goals rfl

theorem Drives.one_access {w : Word} {row : Control} {k : Work} (h : Drives w row k) :
    row.read = false ∨ row.write = false := by
  cases h
  case load => exact .inr rfl
  case discard => exact .inr rfl
  all_goals exact .inl rfl

/-- The datapath does the work of the word, under every table. -/
theorem datapath_eq_result (s : State) (w : Word) : datapath s w = (workOf (decodeWith s.cfg.codes w)).result s := by
  have drives := control_drives s.cfg.codes w
  rw [datapath_eq s w drives.one_access, drives.check_eq, drives.latches_eq, Work.result]

theorem execute_eq_datapath (w : Word) (s : State) : execute w s = outcomeOf (datapath s w) := by
  rw [execute_eq_result, datapath_eq_result]

/-- Settles O54: both are the frozen state, the refused fetch, or the work of the fetched word. -/
theorem clockEdgeIsStep : Obligations.ClockEdgeIsStep := by
  intro s
  unfold clockEdge step cycle
  cases s.run with
  | false => rfl
  | true =>
    cases s.fetch with
    | error f => rfl
    | ok w =>
      simp only [execute_eq_datapath]
      cases datapath s w <;> rfl

theorem registerControl_read (c : Codes) (fn : BitVec 6) : (registerControl c fn).read = false := by
  rw [registerControl_eq]
  split
  · rfl
  · cases (registerAluRows c).lookup fn <;> rfl

theorem immediateControl_read (c : Codes) (sub : BitVec 3) : (immediateControl c sub).read = false := by
  rw [immediateControl_eq]
  cases (immediateAluRows c).lookup sub <;> rfl

theorem loadControl_read (c : Codes) (sub : BitVec 3) : (loadControl c sub).read = true := by
  simp only [loadControl]
  split <;> rfl

theorem storeControl_read (c : Codes) (sub : BitVec 3) : (storeControl c sub).read = false := by
  simp only [storeControl]
  split <;> rfl

/-- The read enable is on exactly for the load category (rule R125). -/
theorem control_read_iff (c : Codes) (w : Word) : (control c w).read = true ↔ classify c (opcodeOf w) = .load := by
  unfold control
  cases classify c (opcodeOf w) with
  | registerOp => simp [registerControl_read]
  | immediateAlu => simp [immediateControl_read]
  | load => simp [loadControl_read]
  | store => simp [storeControl_read]
  | unknown => simp [inertControl]

/-- The write enable is on exactly where the work is a word store. -/
theorem Drives.write_iff {w : Word} {row : Control} {k : Work} (h : Drives w row k) :
    row.write = true ↔ ∃ rt imm rs, k = .store rt imm rs := by
  cases h <;> simp [aluControl, inertControl, addressControl]

/-- Only `sw` stores a word. -/
theorem workOf_eq_store_iff (d : Decoded) (rt : RegIdx) (imm : Imm16) (rs : RegIdx) :
    workOf d = .store rt imm rs ↔ d = .instr (.sw rt imm rs) := by
  cases d with
  | instr i => cases i <;> simp [workOf]
  | unknown u => cases u <;> simp [workOf]

/-- The data address is that of the work's access. -/
theorem Drives.address_eq {w : Word} {row : Control} {k : Work} (h : Drives w row k) (s : State) :
    (if row.read || row.write then some (row.result s w) else none) =
      k.access.map fun p => s.reg p.1 + p.2.signExtend 32 := by
  cases h <;> rfl

/-- A row that reads does so at the word's base plus offset. -/
theorem Drives.result_of_read {w : Word} {row : Control} {k : Work} (h : Drives w row k) (hread : row.read = true)
    (s : State) : row.result s w = s.reg (rsOf w) + (immOf w).signExtend 32 := by
  cases h
  case load => rfl
  case discard => rfl
  all_goals cases hread

/-- A word store's data register is the word's `rt` field. -/
theorem Drives.store_data {w : Word} {row : Control} {rt rs : RegIdx} {imm : Imm16}
    (h : Drives w row (.store rt imm rs)) : rt = rtOf w := by
  cases h
  rfl

section ports

variable (s : State) (w : Word)

theorem portsOf_dmemRe : (portsOf s w).dmemRe = true ↔ classify s.cfg.codes (opcodeOf w) = .load :=
  control_read_iff s.cfg.codes w

theorem portsOf_dmemWe :
    (portsOf s w).dmemWe = true ↔ ∃ rt imm rs, decodeWith s.cfg.codes w = .instr (.sw rt imm rs) := by
  simp only [← workOf_eq_store_iff]
  exact (control_drives s.cfg.codes w).write_iff

theorem portsOf_dmemAddr : (portsOf s w).dmemAddr =
    (dataAccess (decodeWith s.cfg.codes w)).map fun p => s.reg p.1 + p.2.signExtend 32 := by
  rw [dataAccess_eq]
  exact (control_drives s.cfg.codes w).address_eq s

/-- A load's read data is the word at base plus offset, where the access is admitted. -/
theorem portsOf_dmemRdata_of_admits (hload : classify s.cfg.codes (opcodeOf w) = .load)
    (h : s.admits (s.reg (rsOf w) + (immOf w).signExtend 32)) :
    (portsOf s w).dmemRdata = some (s.wordAt (s.reg (rsOf w) + (immOf w).signExtend 32)) := by
  have hread := (control_read_iff s.cfg.codes w).2 hload
  simp only [portsOf, Control.readData, hread, if_true, (control_drives s.cfg.codes w).result_of_read hread,
    s.memRead_of_admits .load _ h]

/-- A load refused reads nothing. -/
theorem portsOf_dmemRdata_of_not (hload : classify s.cfg.codes (opcodeOf w) = .load)
    (h : ¬ s.admits (s.reg (rsOf w) + (immOf w).signExtend 32)) : (portsOf s w).dmemRdata = none := by
  have hread := (control_read_iff s.cfg.codes w).2 hload
  obtain ⟨f, hf⟩ := s.memRead_of_not .load _ h
  simp only [portsOf, Control.readData, hread, if_true, (control_drives s.cfg.codes w).result_of_read hread, hf]

/-- Nor does any other word. -/
theorem portsOf_dmemRdata_of_ne_load (hload : classify s.cfg.codes (opcodeOf w) ≠ .load) :
    (portsOf s w).dmemRdata = none := by
  have hread := mt (control_read_iff s.cfg.codes w).1 hload
  simp only [portsOf, Control.readData, if_neg hread]

theorem portsOf_dmemWdata_of_store {rt rs : RegIdx} {imm : Imm16}
    (h : decodeWith s.cfg.codes w = .instr (.sw rt imm rs)) : (portsOf s w).dmemWdata = some (s.reg rt) := by
  have drives := control_drives s.cfg.codes w
  rw [(workOf_eq_store_iff ..).2 h] at drives
  rw [drives.store_data]
  rfl

/-- A completed cycle shows its diagnostic and no refusal. -/
theorem portsOf_of_next {t : State} (h : execute w s = .next t) :
    (portsOf s w).memFault = false ∧ (portsOf s w).diag = t.diag.code := by
  rw [execute_eq_datapath, outcomeOf_next_iff] at h
  simp only [portsOf, h, and_self]

/-- A refused access shows the refusal and no diagnostic (rule R149). -/
theorem portsOf_of_fault {f : Fault} (h : execute w s = .fault f) :
    (portsOf s w).memFault = true ∧ (portsOf s w).diag = Diag.none.code := by
  rw [execute_eq_datapath, outcomeOf_fault_iff] at h
  simp only [portsOf, h, and_self]

end ports

/-- Settles O55: port by port where the fetch answers; where it is refused, the ports of `refusedFetchPorts`. -/
theorem portsCarryTheCycle : Obligations.PortsCarryTheCycle := by
  intro s
  constructor
  · intro w hfetch
    have hports : ports s = portsOf s w := by rw [ports, hfetch]
    rw [hports]
    exact ⟨rfl, rfl, rfl, portsOf_dmemRe s w, portsOf_dmemWe s w, portsOf_dmemAddr s w,
      portsOf_dmemRdata_of_admits s w, portsOf_dmemRdata_of_not s w, portsOf_dmemRdata_of_ne_load s w, rfl,
      fun _ _ _ => portsOf_dmemWdata_of_store s w, fun _ => portsOf_of_next s w, fun _ => portsOf_of_fault s w⟩
  · intro f hfetch
    have hports : ports s = refusedFetchPorts s := by rw [ports, hfetch]
    rw [hports]
    exact ⟨rfl, rfl, rfl, rfl, rfl, rfl, rfl, rfl, rfl, rfl⟩

end Sys2Proof.Machine
end

section
/-! PROOFS. The cycle and the run: what a step that completes can have done, and from it the program counter, the run
flag, being stuck, and the invariant of the machine (rules R14, R15, R17, R26, R75 to R77, R164, R169). -/

namespace Sys2Proof.Machine

/-- A step that completes found the run ended, or executed the word at the program counter. -/
theorem step_next_cases {s t : State} (h : step s = .next t) :
    (s.run = false ∧ t = s) ∨
      (s.run = true ∧ s.admits s.current.pc ∧ execute (s.wordAt s.current.pc) s = .next t) := by
  cases hr : s.run with
  | false =>
    rw [step_ended s hr] at h
    exact .inl ⟨rfl, (Host.Outcome.next.inj h).symm⟩
  | true =>
    by_cases hpc : s.admits s.current.pc
    · exact .inr ⟨rfl, hpc, (step_running s hr hpc).symm.trans h⟩
    · obtain ⟨f, hf⟩ := step_fetch_refused s hr hpc
      rw [hf] at h
      cases h

/-- A running step that completes has one of the effects of its word. -/
theorem step_effect {s t : State} (hr : s.run = true) (h : step s = .next t) :
    Effect s (decodeWith s.cfg.codes (s.wordAt s.current.pc)) (.next t) := by
  obtain ⟨hended, -⟩ | ⟨-, -, hexec⟩ := step_next_cases h
  · rw [hr] at hended
    cases hended
  · exact hexec ▸ execute_effect _ s

/-- Settles O37: an admitted fetch answers the word at the program counter, which is dispatched as it decodes. -/
theorem stepRunsDecodedInstruction : Obligations.StepRunsDecodedInstruction := by
  intro s hr hpc
  rw [step_running s hr hpc, execute]
  exact ⟨fun i h => by rw [h], fun u h => by rw [h]⟩

/-- No step is refused: no word is, and a fetch that is not admitted faults. -/
theorem step_not_refused (s : State) (r : Refusal) : step s ≠ .refused r := by
  cases hr : s.run with
  | false => simp [step_ended s hr]
  | true =>
    by_cases hpc : s.admits s.current.pc
    · rw [step_running s hr hpc]
      exact execute_not_refused _ s r
    · obtain ⟨f, hf⟩ := step_fetch_refused s hr hpc
      simp [hf]

/-- Settles O40: a step is the frozen state, a refused fetch, or a word, and none of them is a refusal. -/
theorem nothingRefused : Obligations.NothingRefused := step_not_refused

/-- The work of a word is refused exactly where its data access is not admitted. -/
theorem execute_fault_iff_access (w : Word) (s : State) : (∃ f, execute w s = .fault f) ↔
    ∃ rs imm, dataAccess (decodeWith s.cfg.codes w) = some (rs, imm) ∧ ¬ s.admits (s.reg rs + imm.signExtend 32) := by
  constructor
  · rintro ⟨f, h⟩
    cases h ▸ execute_effect w s with
    | stuck f rs imm access refused => exact ⟨rs, imm, access, refused⟩
  · rintro ⟨rs, imm, access, refused⟩
    simp only [execute_fault_iff]
    rw [dataAccess_eq] at access
    cases hk : workOf (decodeWith s.cfg.codes w) <;> rw [hk] at access <;> cases access
    all_goals exact s.checkAccess_error_of_not _ _ refused

/-- Settles O39: a running machine is stuck at its fetch or in the word it fetched. -/
theorem stuckExactlyOnRefusedAccess : Obligations.StuckExactlyOnRefusedAccess := by
  intro s
  rw [← execute_fault_iff_access, State.stuck]
  cases hr : s.run with
  | false => simp [step_ended s hr]
  | true =>
    by_cases hpc : s.admits s.current.pc
    · simp [step_running s hr hpc, hpc]
    · simp [step_fetch_refused s hr hpc, hpc]

/-- Settles O41: of a step by `step_effect`, of a word however obtained by its own effect. -/
theorem everyCycleAdvances : Obligations.EveryCycleAdvances := by
  intro s t
  constructor
  · intro hr h
    have effect := step_effect hr h
    exact ⟨effect.advances, effect.advancesModWidth⟩
  · intro w h
    have effect := h ▸ execute_effect w s
    exact ⟨effect.advances, effect.advancesModWidth⟩

/-- An advance by 4 modulo a power of two keeps the remainder modulo 4: the modulus is 1 or 2, which leave a counter
within it as it is, or a multiple of 4. -/
theorem add_four_mod_two_pow_mod_four {p n : Nat} (h : p < 2 ^ n) : (p + 4) % 2 ^ n % 4 = p % 4 := by
  match n with
  | 0 => omega
  | 1 => omega
  | n + 2 => rw [Nat.mod_mod_of_dvd _ ⟨2 ^ n, by ring⟩, Nat.add_mod_right]

/-- Settles O42: a frozen counter stays; a running one advances by 4, to 0 from 4 below the modulus. -/
theorem programCounterAlignmentKept : Obligations.ProgramCounterAlignmentKept := by
  intro s t fits h
  obtain ⟨hended, rfl⟩ | ⟨hr, -, hexec⟩ := step_next_cases h
  · simp [hended]
  · have adv : AdvancesModWidth s t := (hexec ▸ execute_effect _ s).advancesModWidth
    have wraps : s.current.pc.toNat + 4 = 2 ^ s.cfg.pcWidth.val → t.current.pc = 0 := fun htop =>
      BitVec.eq_of_toNat_eq (by rw [adv, htop, Nat.mod_self]; rfl)
    refine ⟨?_, fun _ => wraps, fun _ hwidth hpc => wraps (by rw [hwidth, hpc]; rfl)⟩
    rw [adv]
    exact add_four_mod_two_pow_mod_four fits

/-- A run of `k + 1` steps that completes is a step that does and the run of `k` from there. -/
theorem runSteps_succ_cases {k : Nat} {s t : State} (h : runSteps (k + 1) s = .next t) :
    ∃ s', step s = .next s' ∧ runSteps k s' = .next t := by
  cases hstep : step s with
  | next s' => exact ⟨s', rfl, (runSteps_succ_next k s s' hstep).symm.trans h⟩
  | fault f =>
    rw [runSteps_succ_fault k s f hstep] at h
    cases h
  | refused r => exact absurd hstep (step_not_refused s r)

/-- Settles O45, by induction on the number of steps. -/
theorem endedRunIsFrozen : Obligations.EndedRunIsFrozen := by
  intro k s hended
  induction k with
  | zero => rfl
  | succ k ih => rw [runSteps_succ_next k s s (step_ended s hended), ih]

/-- A run that has not ended after `k` steps has advanced the program counter 4k (rule R169): every step of it ran. -/
theorem runSteps_pc (k : Nat) : ∀ s t : State, s.pcFits → runSteps k s = .next t → t.run = true →
    t.current.pc.toNat = (s.current.pc.toNat + 4 * k) % 2 ^ s.cfg.pcWidth.val := by
  induction k with
  | zero =>
    intro s t fits h _
    obtain rfl := Host.Outcome.next.inj h
    exact (Nat.mod_eq_of_lt fits).symm
  | succ k ih =>
    intro s t fits h hrun
    obtain ⟨s', hstep, hrest⟩ := runSteps_succ_cases h
    obtain ⟨hended, rfl⟩ | ⟨hr, -, hexec⟩ := step_next_cases hstep
    · rw [endedRunIsFrozen k _ hended] at hrest
      obtain rfl := Host.Outcome.next.inj hrest
      rw [hended] at hrun
      cases hrun
    · have effect := hexec ▸ execute_effect _ s
      have adv : AdvancesModWidth s s' := effect.advancesModWidth
      have hcfg : s'.cfg = s.cfg := effect.advances.cfg
      have fits' : s'.pcFits := by
        rw [State.pcFits, hcfg, adv]
        exact Nat.mod_lt _ (Nat.two_pow_pos _)
      rw [ih s' t fits' hrest hrun, hcfg, adv, Nat.mod_add_mod]
      congr 1
      omega

/-- Settles O43: `runSteps_pc`, read as a word sum at width 32. -/
theorem programsAreStraightLines : Obligations.ProgramsAreStraightLines := by
  intro k s t fits h hrun
  have hpc := runSteps_pc k s t fits h hrun
  refine ⟨hpc, fun hwidth => BitVec.eq_of_toNat_eq ?_⟩
  rw [hpc, hwidth, BitVec.toNat_add, BitVec.toNat_ofNat, Nat.add_mod_mod]
  rfl

/-- Settles O44: of the effects of a word only the exit changes the run flag, and it clears it. -/
theorem runEndsOnlyAtExit : Obligations.RunEndsOnlyAtExit := by
  intro s t h
  obtain ⟨hended, rfl⟩ | ⟨hr, -, hexec⟩ := step_next_cases h
  · simp [hended]
  · cases hexec ▸ execute_effect _ s with
    | wrote r v _ stays => exact iff_of_false (by simp [State.wrote, hr]) (not_or.2 ⟨by simp [hr], stays⟩)
    | reported k _ stays => exact iff_of_false (by simp [State.reported, hr]) (not_or.2 ⟨by simp [hr], stays⟩)
    | exited asks => exact iff_of_true rfl (.inr asks)
    | stored a v rt imm rs isStore =>
      refine iff_of_false (by simp [State.stored, hr]) ?_
      rw [isStore]
      simp [hr]

/-- A completed word leaves memory as it was, or is a word store to an admitted address. -/
theorem Effect.mem_cases {s t : State} {d : Decoded} (h : Effect s d (.next t)) :
    t.mem = s.mem ∨ IsStoreWord d ∧ ∃ a v, s.admits a ∧ t.mem = s.mem.setWord s.cfg.byteOrder a v := by
  cases h with
  | wrote => exact .inl rfl
  | reported => exact .inl rfl
  | exited => exact .inl rfl
  | stored a v rt imm rs isStore _ _ ok => exact .inr ⟨⟨rt, imm, rs, isStore⟩, a, v, ok, rfl⟩

/-- Settles O36: a completed instruction that leaves another memory is a word store. -/
theorem onlyStoreWordChangesMemory : Obligations.OnlyStoreWordChangesMemory := by
  intro i s t notStore h k
  obtain hmem | ⟨⟨rt, imm, rs, hi⟩, -⟩ := (h ▸ exec_effect i s).mem_cases
  · rw [State.byteAt, hmem]
    rfl
  · exact absurd (Decoded.instr.inj hi) (notStore rt imm rs)

/-- Each byte of an admitted word is mapped. -/
theorem State.admits.isMapped {s : State} {a : Word} (h : s.admits a) {k : Nat} (hk : k < 4) :
    s.cfg.isMapped (byteAddr a k) = true := by
  obtain ⟨hmap, -⟩ := h
  simp only [Config.mapsWord, Bool.and_eq_true] at hmap
  obtain ⟨⟨⟨h0, h1⟩, h2⟩, h3⟩ := hmap
  match k, hk with
  | 0, _ => exact h0
  | 1, _ => exact h1
  | 2, _ => exact h2
  | 3, _ => exact h3

/-- A word stored at an admitted address lists only mapped addresses. -/
theorem holds_setWord {s : State} (h : s.cfg.holds s.mem) {a : Word} (ok : s.admits a) (v : Word) :
    s.cfg.holds (s.mem.setWord s.cfg.byteOrder a v) := by
  intro cell hcell
  obtain ⟨k, hk, hat⟩ | hold := Memory.mem_setWord _ _ _ _ _ hcell
  · rw [hat]
    exact ok.isMapped hk
  · exact h cell hold

/-- Every effect of a word that completes keeps the invariant. -/
theorem Effect.keeps_inv {s t : State} {d : Decoded} (h : Effect s d (.next t)) (inv : s.Inv) : t.Inv := by
  have hcfg : t.cfg = s.cfg := h.advances.cfg
  have fits : t.pcFits := by
    rw [State.pcFits, hcfg, h.current_pc]
    exact s.cfg.toNat_nextPc_lt _
  have memory : t.mem.wf = true ∧ s.cfg.holds t.mem := by
    obtain hmem | ⟨-, a, v, ok, hmem⟩ := h.mem_cases
    · rw [hmem]
      exact ⟨inv.memCanonical, inv.memMapped⟩
    · rw [hmem]
      exact ⟨Memory.wf_setWord _ _ _ _ inv.memCanonical, holds_setWord inv.memMapped ok v⟩
  exact ⟨memory.1, hcfg ▸ memory.2, hcfg ▸ inv.imageCanonical, hcfg ▸ inv.imageMapped, fits, h.advances.committed⟩

/-- Settles O50: a frozen state keeps it, and so does every effect of the word executed. -/
theorem stepKeepsInvariant : Obligations.StepKeepsInvariant := by
  intro s t inv h
  obtain ⟨-, rfl⟩ | ⟨-, -, hexec⟩ := step_next_cases h
  · exact inv
  · exact (hexec ▸ execute_effect _ s).keeps_inv inv

/-- The reset state has the invariant where the image is canonical and mapped. -/
theorem inv_resetOf (c : Config) (canonical : c.image.wf = true) (mapped : c.holds c.image) : (State.resetOf c).Inv :=
  ⟨canonical, mapped, canonical, mapped, c.toNat_fitPc_lt c.resetPc, rfl⟩

/-- Settles O51: the default configuration's image is empty. -/
theorem resetHasInvariant : Obligations.ResetHasInvariant :=
  ⟨inv_resetOf, inv_resetOf Config.standard rfl fun _ hcell => absurd hcell List.not_mem_nil⟩

/-- Settles O52: the program counter by what its width holds of RESET_PC, the rest by the definition of reset. -/
theorem resetLeavesParameters : Obligations.ResetLeavesParameters :=
  ⟨fun c => ⟨rfl, c.toNat_fitPc c.resetPc, c.fitPc_of_width32 c.resetPc, rfl, rfl⟩, fun _ => rfl, rfl, rfl, rfl⟩

/-- Settles O53: the program counter holds RESET_PC, and the step is the running step there. -/
theorem firstCycleFetchesFromResetPc : Obligations.FirstCycleFetchesFromResetPc := by
  intro c hrun hfits hadmits
  have hpc : (State.resetOf c).current.pc = c.resetPc := c.fitPc_of_lt c.resetPc hfits
  rw [← hpc] at hadmits ⊢
  exact step_running _ hrun hadmits

end Sys2Proof.Machine
end

section
/-! PROOFS. Which registers a cycle uses, and what it does not depend on: the registers outside the table of register
use, NEXT, the diagnostic and the run flag (rules R12, R19, R77, R78, R148). -/

namespace Sys2Proof.Machine

/-- Whether an access is admitted depends on the parameters of memory alone, its byte order apart. -/
theorem State.checkAccess_congr {s s' : State} (hmis : s'.cfg.misaligned = s.cfg.misaligned)
    (hmap : s'.cfg.mapped = s.cfg.mapped) (kind : Access) (a : Word) :
    s'.checkAccess kind a = s.checkAccess kind a := by
  have hword : s'.cfg.mapsWord a = s.cfg.mapsWord a := by simp only [Config.mapsWord, Config.isMapped, hmap]
  simp only [State.checkAccess, hmis, hword]

theorem State.address_congr {s s' : State} {rs : RegIdx} (h : s'.reg rs = s.reg rs) (imm : Imm16) :
    s'.address rs imm = s.address rs imm := by
  rw [State.address, h, State.address]

theorem Operand.value_congr {a : Operand} {s s' : State} (h : ∀ r ∈ a.sources, s'.reg r = s.reg r) :
    a.value s' = a.value s := by
  cases a with
  | register r => exact h r (List.mem_singleton_self r)
  | constant v => rfl

theorem Operand.value_of_current {s s' : State} (h : s'.current = s.current) (a : Operand) : a.value s' = a.value s :=
  Operand.value_congr fun r _ => by rw [State.reg, h, State.reg]

section agree

variable {k : Work} {s s' : State} (sources : ∀ r ∈ k.sources, s'.reg r = s.reg r)
include sources

/-- Whether work is refused depends on its base register and the parameters of memory. -/
theorem Work.check_congr (hmis : s'.cfg.misaligned = s.cfg.misaligned) (hmap : s'.cfg.mapped = s.cfg.mapped) :
    k.check s' = k.check s := by
  cases k with
  | load rt imm rs =>
    rw [Work.check, State.address_congr (sources rs (by simp [Work.sources])), State.checkAccess_congr hmis hmap,
      Work.check]
  | discard imm rs =>
    rw [Work.check, State.address_congr (sources rs (by simp [Work.sources])), State.checkAccess_congr hmis hmap,
      Work.check]
  | store rt imm rs =>
    rw [Work.check, State.address_congr (sources rs (by simp [Work.sources])), State.checkAccess_congr hmis hmap,
      Work.check]
  | _ => rfl

/-- The value work writes depends on its sources, memory and the parameters. -/
theorem Work.leaves_destination_congr (hmem : s'.mem = s.mem) (hcfg : s'.cfg = s.cfg) {d : RegIdx}
    (hd : k.destination = some d) : (k.leaves s').reg d = (k.leaves s).reg d := by
  cases k with
  | compute d op a b =>
    obtain rfl := Option.some.inj hd
    have ha : a.value s' = a.value s := Operand.value_congr fun r hr => sources r (by simp [Work.sources, hr])
    have hb : b.value s' = b.value s := Operand.value_congr fun r hr => sources r (by simp [Work.sources, hr])
    exact (s'.wrote_spec _ _).value.trans (by rw [ha, hb]; exact (s.wrote_spec _ _).value.symm)
  | load d imm rs =>
    obtain rfl := Option.some.inj hd
    refine (s'.wrote_spec _ _).value.trans (Eq.trans ?_ (s.wrote_spec _ _).value.symm)
    rw [State.wordAt, State.wordAt, hmem, hcfg, State.address_congr (sources rs (by simp [Work.sources]))]
  | _ => cases hd

/-- The memory work leaves depends on its sources, memory and the parameters. -/
theorem Work.leaves_mem_congr (hmem : s'.mem = s.mem) (hcfg : s'.cfg = s.cfg) :
    (k.leaves s').mem = (k.leaves s).mem := by
  cases k with
  | store rt imm rs =>
    simp only [Work.leaves, State.stored, hmem, hcfg, State.address_congr (sources rs (by simp [Work.sources])),
      sources rt (by simp [Work.sources])]
  | exit =>
    simp only [Work.leaves, sources 2 (by simp [Work.sources])]
    split <;> exact hmem
  | _ => exact hmem

/-- The run flag work leaves depends on its sources and the run flag. -/
theorem Work.leaves_run_congr (hrun : s'.run = s.run) : (k.leaves s').run = (k.leaves s).run := by
  cases k with
  | exit =>
    simp only [Work.leaves, sources 2 (by simp [Work.sources])]
    split
    · rfl
    · exact hrun
  | _ => exact hrun

end agree

/-- Settles O47: the work of the word reads its sources and writes its destination, which are those of the table. -/
theorem operandsReadAndWritten : Obligations.OperandsReadAndWritten := by
  intro w s s' hpc hrun hmem hcfg sources
  rw [sourceRegisters_eq] at sources
  simp only [destinationRegister_eq, execute_next_iff, execute_fault_iff, hcfg]
  generalize workOf (decodeWith s.cfg.codes w) = k at sources ⊢
  have check : k.check s' = k.check s := Work.check_congr sources (by rw [hcfg]) (by rw [hcfg])
  rw [check]
  refine ⟨?_, fun f h => h⟩
  rintro t ⟨ok, rfl⟩
  refine ⟨k.leaves s', ⟨ok, rfl⟩, ?_, Work.leaves_run_congr sources hrun, Work.leaves_mem_congr sources hmem hcfg, ?_,
    fun r hr => Work.leaves_destination_congr sources hmem hcfg hr,
    fun r hr => ⟨k.leaves_reg_of_ne s r hr, k.leaves_reg_of_ne s' r hr⟩⟩
  · rw [k.leaves_current_pc, k.leaves_current_pc, hpc, hcfg]
  · rw [k.leaves_diag, k.leaves_diag]

/-- A store-category word has no destination, the reserved and unknown ones included (rule R135). -/
theorem destinationRegister_of_store {c : Codes} {w : Word} (h : classify c (opcodeOf w) = .store) :
    destinationRegister (decodeWith c w) = none := by
  rw [decodeWith, h]
  simp only [decodeStore]
  repeat' split
  all_goals rfl

/-- A reserved load has no destination (rule R127). -/
theorem destinationRegister_of_reservedLoad {d : Decoded} {rt rs : RegIdx} {imm : Imm16}
    (h : d ∈ [Decoded.instr (.lb rt imm rs), .instr (.lh rt imm rs), .instr (.lbu rt imm rs),
      .instr (.lhu rt imm rs)]) :
    destinationRegister d = none := by
  simp only [List.mem_cons, List.not_mem_nil, or_false] at h
  obtain rfl | rfl | rfl | rfl := h <;> rfl

/-- Settles O46: registers other than the word's destination are kept, and each of the words named has none. -/
theorem atMostOneRegisterWritten : Obligations.AtMostOneRegisterWritten := by
  intro w s t h
  obtain ⟨-, rfl⟩ := (execute_next_iff w s t).1 h
  have kept := (workOf (decodeWith s.cfg.codes w)).leaves_reg_of_ne s
  rw [← destinationRegister_eq] at kept
  have keptAll : destinationRegister (decodeWith s.cfg.codes w) = none →
      ∀ r, ((workOf (decodeWith s.cfg.codes w)).leaves s).reg r = s.reg r :=
    fun hnone r => kept r (by rw [hnone]; exact Option.some_ne_none r ∘ Eq.symm)
  refine ⟨?_, keptAll, fun ⟨g, hd⟩ => keptAll (by rw [hd]; rfl),
    fun ⟨rt, imm, rs, hd⟩ => keptAll (destinationRegister_of_reservedLoad hd),
    fun ⟨u, hd⟩ => keptAll (by rw [hd]; rfl), fun hstore => keptAll (destinationRegister_of_store hstore)⟩
  cases hdest : destinationRegister (decodeWith s.cfg.codes w) with
  | none => exact ⟨0, fun r _ => keptAll hdest r⟩
  | some d => exact ⟨d, fun r hr => kept r (by rw [hdest]; exact fun e => hr (Option.some.inj e).symm)⟩

/-- What work comes to does not depend on NEXT or the diagnostic, which the cycle initialises (rule R77). -/
theorem Work.result_with_next (k : Work) (s : State) (n : Arch) (d : Diag) :
    k.result { s with next := n, diag := d } = k.result s := by
  cases k with
  | compute r op a b =>
    have value := Operand.value_of_current (s' := { s with next := n, diag := d }) (s := s) rfl
    simp only [Work.result, Work.leaves, value]
    rfl
  | _ => rfl

/-- Settles O48: neither the fetch nor the work of the fetched word depends on them. -/
theorem nextAndDiagnosticNeverRead : Obligations.NextAndDiagnosticNeverRead := by
  intro s n d hr
  have same : ∀ w, execute w { s with next := n, diag := d } = execute w s := fun w => by
    rw [execute_eq_result, execute_eq_result, Work.result_with_next]
  have fetch : State.fetch { s with next := n, diag := d } = s.fetch := rfl
  simp only [step, cycle, fetch, same]
  simp only [hr]

theorem Work.check_with_run (k : Work) (s : State) (b : Bool) : k.check { s with run := b } = k.check s := by
  cases k <;> rfl

/-- Work leaves the same registers, program counter, memory and diagnostic whatever the run flag. -/
theorem Work.leaves_with_run (k : Work) (s : State) (b : Bool) :
    (k.leaves { s with run := b }).current = (k.leaves s).current ∧
      (k.leaves { s with run := b }).mem = (k.leaves s).mem ∧
      (k.leaves { s with run := b }).diag = (k.leaves s).diag := by
  cases k with
  | compute r op x y =>
    have value := Operand.value_of_current (s' := { s with run := b }) (s := s) rfl
    simp only [Work.leaves, value]
    exact ⟨rfl, rfl, rfl⟩
  | exit =>
    have hreg : State.reg { s with run := b } 2 = s.reg 2 := rfl
    simp only [Work.leaves, hreg]
    split <;> exact ⟨rfl, rfl, rfl⟩
  | _ => exact ⟨rfl, rfl, rfl⟩

/-- Settles O49: the work of the word is the same, and is refused alike. -/
theorem executeIgnoresRunFlag : Obligations.ExecuteIgnoresRunFlag := by
  intro w s b
  simp only [execute_next_iff, execute_fault_iff, Work.check_with_run]
  refine ⟨?_, fun f h => h⟩
  rintro t ⟨ok, rfl⟩
  exact ⟨_, ⟨ok, rfl⟩, Work.leaves_with_run _ s b⟩

end Sys2Proof.Machine
end

section
/-! PROOFS. The byte order is invisible to aligned programs (rule R33): machines that differ in it and hold each aligned
word in their own order admit the same accesses, read the same words, and keep so by every word's work. -/

namespace Sys2Proof.Machine

/-- The bytes of two aligned words have different addresses, the words being different. -/
theorem byteAddr_ne_of_aligned {a a' : Word} (ha : a.toNat % 4 = 0) (ha' : a'.toNat % 4 = 0) (hne : a ≠ a') {j k : Nat}
    (hj : j < 4) (hk : k < 4) : byteAddr a j ≠ byteAddr a' k := by
  rw [byteAddr_eq, byteAddr_eq]
  intro h
  have := a.isLt
  have := a'.isLt
  exact hne (BitVec.eq_of_toNat_eq (by omega))

/-- The big-endian bytes of a word are its little-endian bytes from the other end. -/
theorem byteOfWord_big (v : Word) (k : Nat) : byteOfWord .big v k = byteOfWord .little v (3 - k) := rfl

section swapped

variable {s b : State} (swapped : ByteSwapped s b)
include swapped

theorem ByteSwapped.reg_eq (r : RegIdx) : b.reg r = s.reg r := by
  rw [State.reg, swapped.current, State.reg]

theorem ByteSwapped.big : b.cfg.byteOrder = .big := by
  rw [swapped.cfg]

/-- The two machines admit the same accesses, and refuse with the same fault. -/
theorem ByteSwapped.checkAccess_eq (kind : Access) (a : Word) : b.checkAccess kind a = s.checkAccess kind a :=
  State.checkAccess_congr (by rw [swapped.cfg]) (by rw [swapped.cfg]) kind a

/-- What they admit is aligned. -/
theorem ByteSwapped.aligned {a : Word} (h : s.admits a) : a.toNat % 4 = 0 := h.2 swapped.refuse

/-- They read the same word at an aligned address, each in its own order. -/
theorem ByteSwapped.wordAt_eq {a : Word} (ha : a.toNat % 4 = 0) : b.wordAt a = s.wordAt a := by
  have bytes : ∀ k, k < 4 → b.mem.byteAt (byteAddr a k) = s.mem.byteAt (byteAddr a (3 - k)) := swapped.bytes a ha
  rw [State.wordAt, State.wordAt, Memory.wordAt, Memory.wordAt, swapped.big, swapped.little, bytes 0 (by omega),
    bytes 1 (by omega), bytes 2 (by omega), bytes 3 (by omega)]
  rfl

theorem ByteSwapped.memRead_eq (kind : Access) (a : Word) : b.memRead kind a = s.memRead kind a := by
  rw [State.memRead_eq, State.memRead_eq, swapped.checkAccess_eq]
  cases hcheck : s.checkAccess kind a with
  | error f => rfl
  | ok u => rw [Except.map, Except.map, swapped.wordAt_eq (swapped.aligned ((s.checkAccess_ok_iff kind a).1 hcheck))]

/-- The same word stored at the same aligned address, each in its own order, keeps the memories swapped. -/
theorem ByteSwapped.bytes_setWord (hs : s.mem.wf = true) (hb : b.mem.wf = true) {a : Word} (ha : a.toNat % 4 = 0)
    (v : Word) (a' : Word) (ha' : a'.toNat % 4 = 0) (k : Nat) (hk : k < 4) :
    (b.mem.setWord .big a v).byteAt (byteAddr a' k) = (s.mem.setWord .little a v).byteAt (byteAddr a' (3 - k)) := by
  have hk' : 3 - k < 4 := by omega
  by_cases h : a' = a
  · rw [h, Memory.byteAt_setWord_inside _ _ hb _ _ _ hk, Memory.byteAt_setWord_inside _ _ hs _ _ _ hk',
      byteOfWord_big]
  · rw [Memory.byteAt_setWord_outside _ _ hb _ _ _ fun j hj => byteAddr_ne_of_aligned ha' ha h hk hj,
      Memory.byteAt_setWord_outside _ _ hs _ _ _ fun j hj => byteAddr_ne_of_aligned ha' ha h hk' hj]
    exact swapped.bytes a' ha' k hk

/-- Machines that go on from swapped ones alike, with memory kept, are swapped. -/
theorem ByteSwapped.of_kept {t u : State} (tcfg : t.cfg = s.cfg) (ucfg : u.cfg = b.cfg) (tmem : t.mem = s.mem)
    (umem : u.mem = b.mem) (current : u.current = t.current) (run : u.run = t.run) (diag : u.diag = t.diag) :
    ByteSwapped t u where
  little := tcfg ▸ swapped.little
  refuse := tcfg ▸ swapped.refuse
  cfg := by rw [ucfg, swapped.cfg, tcfg]
  current := current
  run := run
  diag := diag
  bytes := fun a ha k hk => by
    rw [State.byteAt, State.byteAt, tmem, umem]
    exact swapped.bytes a ha k hk

/-- The byte order has no part in what a cycle initialises NEXT to. -/
theorem ByteSwapped.next_eq : b.beginCycle.next = s.beginCycle.next := by
  simp only [State.beginCycle, swapped.current, swapped.cfg]
  rfl

theorem ByteSwapped.reported (k : Diag) : ByteSwapped (s.reported k) (b.reported k) :=
  swapped.of_kept rfl rfl rfl rfl swapped.next_eq swapped.run rfl

theorem ByteSwapped.exited : ByteSwapped s.beginCycle.clearRun.commit b.beginCycle.clearRun.commit :=
  swapped.of_kept rfl rfl rfl rfl swapped.next_eq rfl rfl

theorem ByteSwapped.wrote (d : RegIdx) (v : Word) : ByteSwapped (s.wrote d v) (b.wrote d v) :=
  swapped.of_kept rfl rfl rfl rfl
    (congrArg (fun n : Arch => { n with regs := n.regs.set d v }) swapped.next_eq) swapped.run rfl

theorem ByteSwapped.stored (hs : s.mem.wf = true) (hb : b.mem.wf = true) {a : Word} (ha : a.toNat % 4 = 0) (v : Word) :
    ByteSwapped (s.stored a v) (b.stored a v) :=
  { swapped.reported .none with
    bytes := fun a' ha' k hk => by
      have bytes := swapped.bytes_setWord hs hb ha v a' ha' k hk
      rw [← swapped.big, ← swapped.little] at bytes
      exact bytes }

/-- The same work keeps the machines swapped. -/
theorem ByteSwapped.leaves (hs : s.mem.wf = true) (hb : b.mem.wf = true) (k : Work) (ok : k.check s = .ok ()) :
    ByteSwapped (k.leaves s) (k.leaves b) := by
  cases k with
  | compute d op x y =>
    have value (x : Operand) : x.value b = x.value s := x.value_of_current swapped.current
    rw [Work.leaves, Work.leaves, value, value]
    exact swapped.wrote d _
  | report k => exact swapped.reported k
  | exit =>
    simp only [Work.leaves, swapped.reg_eq]
    split
    · exact swapped.exited
    · exact swapped.reported .none
  | load rt imm rs =>
    have ha := swapped.aligned ((s.checkAccess_ok_iff _ _).1 ok)
    rw [Work.leaves, Work.leaves, State.address_congr (swapped.reg_eq rs), swapped.wordAt_eq ha]
    exact swapped.wrote rt _
  | discard imm rs => exact swapped.reported .unknownLoadSubop
  | store rt imm rs =>
    have ha := swapped.aligned ((s.checkAccess_ok_iff _ _).1 ok)
    rw [Work.leaves, Work.leaves, State.address_congr (swapped.reg_eq rs), swapped.reg_eq]
    exact swapped.stored hs hb ha _

end swapped

/-- Settles O56: the machines are both frozen, or fetch the same word and do its work, or are refused alike. -/
theorem byteOrderInvisibleWhenAligned : Obligations.ByteOrderInvisibleWhenAligned := by
  intro s b swapped hs hb
  have fetch : b.fetch = s.fetch := by rw [State.fetch, swapped.current, swapped.memRead_eq, State.fetch]
  have codes : b.cfg.codes = s.cfg.codes := by rw [swapped.cfg]
  simp only [step, cycle, swapped.run, fetch]
  cases s.run with
  | false => exact ⟨fun t h => ⟨b, rfl, Host.Outcome.next.inj h ▸ swapped⟩, fun f h => nomatch h⟩
  | true =>
    cases s.fetch with
    | error f => exact ⟨fun t h => (nomatch h), fun f h => h⟩
    | ok w =>
      simp only [execute_next_iff, execute_fault_iff, codes]
      generalize workOf (decodeWith s.cfg.codes w) = k
      have check : k.check b = k.check s :=
        Work.check_congr (fun r _ => swapped.reg_eq r) (by rw [swapped.cfg]) (by rw [swapped.cfg])
      rw [check]
      refine ⟨?_, fun f h => h⟩
      rintro t ⟨ok, rfl⟩
      exact ⟨k.leaves b, ⟨ok, rfl⟩, swapped.leaves hs hb k ok⟩

end Sys2Proof.Machine
end

section
/-! PROOFS. The operand forms and the ALU by value (rules R53, R79, R80, R125). -/

namespace Sys2Proof.Machine

theorem toInt_sext32 (imm : Imm16) : (sext32 imm).toInt = imm.toInt :=
  BitVec.toInt_signExtend_of_le (by decide)

theorem toNat_zext32 (imm : Imm16) : (zext32 imm).toNat = imm.toNat :=
  BitVec.toNat_setWidth_of_le (by decide)

/-- The upper-half placement takes the low half of its operand, times 65536. -/
theorem toNat_upperHalf (b : Word) : (upperHalf b).toNat = b.toNat % 65536 * 65536 := by
  rw [upperHalf, BitVec.toNat_append (b.extractLsb' 0 16) (0 : BitVec 16), BitVec.extractLsb'_toNat]
  simp [Nat.shiftLeft_eq]

/-- Settles O9: the three extensions by value, the upper half's operand being below 65536. -/
theorem immediateExtension : Obligations.ImmediateExtension := by
  intro imm
  refine ⟨toInt_sext32 imm, toNat_zext32 imm, ?_⟩
  rw [toNat_upperHalf, toNat_zext32, Nat.mod_eq_of_lt imm.isLt]

/-- Subtraction by value: the integer difference modulo 2^32. -/
theorem toNat_sub_word (a b : Word) : ((a - b).toNat : Int) = ((a.toNat : Int) - b.toNat) % 2 ^ 32 := by
  have := a.isLt
  have := b.isLt
  rw [BitVec.toNat_sub]
  omega

/-- Settles O10: addition and subtraction by value, the bitwise operations bit by bit, the comparisons by their
equations, LUI by its value. -/
theorem aluComputes : Obligations.AluComputes := by
  intro a b
  refine ⟨BitVec.toNat_add a b, toNat_sub_word a b, fun k _ => BitVec.getLsbD_and, fun k _ => BitVec.getLsbD_or,
    fun k _ => BitVec.getLsbD_xor, fun k hk => ?_, lessSigned_eq a b, lessUnsigned_eq a b, toNat_upperHalf b⟩
  simp [alu, hk]

/-- A word sum by value, the second operand read as signed. -/
theorem toNat_add_word (a b : Word) : ((a + b).toNat : Int) = ((a.toNat : Int) + b.toInt) % 2 ^ 32 := by
  rw [BitVec.toNat_add, BitVec.toInt_eq_toNat_cond]
  push_cast
  omega

/-- Settles O11: the word sum of base and extended offset, by value. -/
theorem effectiveAddressWraps : Obligations.EffectiveAddressWraps := by
  intro base imm
  rw [← toInt_sext32]
  exact toNat_add_word base (sext32 imm)

end Sys2Proof.Machine
end

section
/-! PROOFS. The words that are no instruction, and the code under the default numbers (rules R54, R56 to R62, R72, R73,
R119, R127, R137). -/

namespace Sys2Proof

/-- A word of an immediate opcode is an instruction: its `subop` bits are those of one of the eight (rule R119). -/
theorem decodeImmediate_ne_unknown {c : Codes} {w : Word} (hop : opcodeOf w ∈ c.immOps) (u : Unknown) :
    decodeImmediate c w ≠ .unknown u := by
  intro h
  have hsub : subopOf (opcodeOf w) ∈ c.immOps.map subopOf := List.mem_map_of_mem hop
  simp only [Codes.immOps, List.map_cons, List.map_nil, List.mem_cons, List.not_mem_nil, or_false,
    ← wordSubop_eq_subopOf] at hsub
  unfold decodeImmediate at h
  iterate 7
    obtain ⟨-, ⟨⟩⟩ | ⟨hne, h⟩ := ite_eq_iff.1 h
    replace hsub := hsub.resolve_left hne
  rw [if_pos hsub] at h
  cases h

/-- A load word that is no instruction names neither the word load nor a reserved one (rule R127). -/
theorem decodeLoad_unknown {c : Codes} {w : Word} {u : Unknown} (h : decodeLoad c w = .unknown u) :
    u = .loadSubop (immOf w) (rsOf w) ∧ wordSubop w ≠ subopOf c.opLw ∧
      opcodeOf w ∉ [c.opLb, c.opLh, c.opLbu, c.opLhu] := by
  unfold decodeLoad at h
  obtain ⟨-, ⟨⟩⟩ | ⟨word, h⟩ := ite_eq_iff.1 h
  obtain ⟨-, ⟨⟩⟩ | ⟨lb, h⟩ := ite_eq_iff.1 h
  obtain ⟨-, ⟨⟩⟩ | ⟨lh, h⟩ := ite_eq_iff.1 h
  obtain ⟨-, ⟨⟩⟩ | ⟨lbu, h⟩ := ite_eq_iff.1 h
  obtain ⟨-, ⟨⟩⟩ | ⟨lhu, h⟩ := ite_eq_iff.1 h
  exact ⟨(Decoded.unknown.inj h).symm, word, by simp [lb, lh, lbu, lhu]⟩

/-- A store word that is no instruction likewise (rule R137). -/
theorem decodeStore_unknown {c : Codes} {w : Word} {u : Unknown} (h : decodeStore c w = .unknown u) :
    u = .storeSubop ∧ wordSubop w ≠ subopOf c.opSw ∧ opcodeOf w ∉ [c.opSb, c.opSh] := by
  unfold decodeStore at h
  obtain ⟨-, ⟨⟩⟩ | ⟨word, h⟩ := ite_eq_iff.1 h
  obtain ⟨-, ⟨⟩⟩ | ⟨sb, h⟩ := ite_eq_iff.1 h
  obtain ⟨-, ⟨⟩⟩ | ⟨sh, h⟩ := ite_eq_iff.1 h
  exact ⟨(Decoded.unknown.inj h).symm, word, by simp [sb, sh]⟩

/-- How a word comes to be no instruction, under any table. -/
inductive NoInstruction (c : Codes) (w : Word) : Unknown → Prop where
  | opcode (category : classify c (opcodeOf w) = .unknown) : NoInstruction c w .opcode
  | funct (register : opcodeOf w = registerOpcode) (unlisted : functOf w ∉ c.functs) : NoInstruction c w .funct
  | loadSubop (category : classify c (opcodeOf w) = .load) (notWord : wordSubop w ≠ subopOf c.opLw)
      (unnamed : opcodeOf w ∉ [c.opLb, c.opLh, c.opLbu, c.opLhu]) :
      NoInstruction c w (.loadSubop (immOf w) (rsOf w))
  | storeSubop (category : classify c (opcodeOf w) = .store) (notWord : wordSubop w ≠ subopOf c.opSw)
      (unnamed : opcodeOf w ∉ [c.opSb, c.opSh]) : NoInstruction c w .storeSubop

theorem noInstruction_of_decodeWith {c : Codes} {w : Word} {u : Unknown} (h : decodeWith c w = .unknown u) :
    NoInstruction c w u := by
  cases category : classify c (opcodeOf w) with
  | registerOp =>
    have hop := (classify_eq_registerOp_iff c _).1 category
    rw [decodeWith_register c w hop] at h
    obtain ⟨rfl, unlisted⟩ := (decodeRegister_unknown_iff c w u).1 h
    exact .funct hop unlisted
  | immediateAlu =>
    rw [decodeWith, category] at h
    exact absurd h (decodeImmediate_ne_unknown ((classify_eq_immediateAlu_iff c _).1 category).2 u)
  | load =>
    rw [decodeWith, category] at h
    obtain ⟨rfl, notWord, unnamed⟩ := decodeLoad_unknown h
    exact .loadSubop category notWord unnamed
  | store =>
    rw [decodeWith, category] at h
    obtain ⟨rfl, notWord, unnamed⟩ := decodeStore_unknown h
    exact .storeSubop category notWord unnamed
  | unknown =>
    rw [decodeWith_of_classify_unknown category] at h
    obtain rfl := Decoded.unknown.inj h
    exact .opcode category

/-- Settles O2, opcode by opcode. -/
theorem classifierMapsEveryOpcode : Obligations.ClassifierMapsEveryOpcode := by
  unfold Obligations.ClassifierMapsEveryOpcode
  decide

/-- Settles O3, word by word. -/
theorem specWordsDecode : Obligations.SpecWordsDecode := by
  unfold Obligations.SpecWordsDecode
  decide

/-- Settles O4: the reserved opcodes of the table are those of the reserved mnemonics. -/
theorem defaultTableWellFormed : Obligations.DefaultTableWellFormed := by
  refine ⟨by decide, fun i => ?_⟩
  cases i <;> rfl

/-- Under the default numbers the words of an instruction are its encodings. -/
theorem decode_eq_instr_iff (i : Instr) (w : Word) : decode w = .instr i ↔ encode i = w := by
  have exist := defaultTableWellFormed.2 i
  exact (decodeWith_eq_instr_iff defaultTableWellFormed.1 i w).trans (and_iff_right exist)

/-- The opcodes no category matches, by number (rule R61). -/
theorem classify_mipsI_eq_unknown_iff : ∀ op : BitVec 6, classify Codes.mipsI op = .unknown ↔
    op.toNat ∉ [0, 8, 9, 10, 11, 12, 13, 14, 15, 32, 33, 35, 36, 37, 40, 41, 43] := by
  decide

/-- The function codes of the table, by number (rule R60). -/
theorem mem_functs_mipsI_iff : ∀ fn : BitVec 6, fn ∈ Codes.mipsI.functs ↔
    fn.toNat ∈ [12, 32, 33, 34, 35, 36, 37, 38, 39, 42, 43] := by
  decide

/-- Every load opcode of the default table is the word load's or a reserved mnemonic's (rule R58). -/
theorem reservedLoads_named : ∀ op : BitVec 6, classify Codes.mipsI op = .load →
    subopOf op ≠ subopOf Codes.mipsI.opLw →
    op ∈ [Codes.mipsI.opLb, Codes.mipsI.opLh, Codes.mipsI.opLbu, Codes.mipsI.opLhu] := by
  decide

/-- So is every store opcode (rule R59). -/
theorem reservedStores_named : ∀ op : BitVec 6, classify Codes.mipsI op = .store →
    subopOf op ≠ subopOf Codes.mipsI.opSw → op ∈ [Codes.mipsI.opSb, Codes.mipsI.opSh] := by
  decide

/-- Under the default numbers only the opcode or the function code can be unknown. -/
theorem decode_unknown_cases {w : Word} {u : Unknown} (h : decode w = .unknown u) :
    (u = .opcode ∧ classify Codes.mipsI (opcodeOf w) = .unknown) ∨
      (u = .funct ∧ opcodeOf w = registerOpcode ∧ functOf w ∉ Codes.mipsI.functs) := by
  cases noInstruction_of_decodeWith h with
  | opcode category => exact .inl ⟨rfl, category⟩
  | funct register unlisted => exact .inr ⟨rfl, register, unlisted⟩
  | loadSubop category notWord unnamed =>
    rw [wordSubop_eq_subopOf] at notWord
    exact absurd (reservedLoads_named _ category notWord) unnamed
  | storeSubop category notWord unnamed =>
    rw [wordSubop_eq_subopOf] at notWord
    exact absurd (reservedStores_named _ category notWord) unnamed

/-- Settles O7: the two cases of `decode_unknown_cases`, each by its numbers. -/
theorem wordsThatAreNoInstruction : Obligations.WordsThatAreNoInstruction := by
  intro w
  rw [← classify_mipsI_eq_unknown_iff, ← mem_functs_mipsI_iff]
  refine ⟨⟨fun h => ?_, decodeWith_of_classify_unknown⟩, ⟨fun h => ?_, fun ⟨hop, hfn⟩ => ?_⟩, fun u h => ?_⟩
  · obtain ⟨-, category⟩ | ⟨⟨⟩, -⟩ := decode_unknown_cases h
    exact category
  · obtain ⟨⟨⟩, -⟩ | ⟨-, listed⟩ := decode_unknown_cases h
    exact listed
  · rw [decode, decodeWith_register _ w hop]
    exact (decodeRegister_unknown_iff _ w _).2 ⟨rfl, hfn⟩
  · exact (decode_unknown_cases h).imp And.left And.left

namespace Machine

/-- The register operations and the immediate-ALU instructions report nothing. -/
theorem diag_workOf_of_category {i : Instr} (hload : i.category ≠ .load) (hstore : i.category ≠ .store) :
    (workOf (.instr i)).diag = .none := by
  cases i <;> simp only [Instr.category, ne_eq, reduceCtorEq, not_true_eq_false] at hload hstore <;> rfl

/-- The kind a register-op word reports (rule R101). -/
theorem diag_decodeWith_registerOp {c : Codes} {w : Word} (h : opcodeOf w = registerOpcode) :
    (workOf (decodeWith c w)).diag = if functOf w ∈ c.functs then .none else .unknownFunct := by
  have category := (classify_eq_registerOp_iff c _).2 h
  cases hd : decodeWith c w with
  | instr i =>
    have listed : functOf w ∈ c.functs := by
      by_contra unlisted
      rw [decodeWith_register c w h, (decodeRegister_unknown_iff c w .funct).2 ⟨rfl, unlisted⟩] at hd
      cases hd
    have family := (classify_of_decodeWith hd).symm.trans category
    rw [if_pos listed, diag_workOf_of_category (by simp [family]) (by simp [family])]
  | unknown u =>
    rw [decodeWith_register c w h] at hd
    obtain ⟨rfl, unlisted⟩ := (decodeRegister_unknown_iff c w u).1 hd
    rw [if_neg unlisted]
    rfl

/-- An immediate-ALU word reports nothing. -/
theorem diag_decodeWith_immediateAlu {c : Codes} {w : Word} (h : classify c (opcodeOf w) = .immediateAlu) :
    (workOf (decodeWith c w)).diag = .none := by
  cases hd : decodeWith c w with
  | instr i =>
    have family := (classify_of_decodeWith hd).symm.trans h
    exact diag_workOf_of_category (by simp [family]) (by simp [family])
  | unknown u =>
    rw [decodeWith, h] at hd
    exact absurd hd (decodeImmediate_ne_unknown ((classify_eq_immediateAlu_iff c _).1 h).2 u)

/-- A load word reports unless it is the word load (rule R127). -/
theorem diag_decodeWith_load {c : Codes} {w : Word} (h : classify c (opcodeOf w) = .load) :
    (workOf (decodeWith c w)).diag = if wordSubop w = subopOf c.opLw then .none else .unknownLoadSubop := by
  rw [decodeWith, h]
  simp only [decodeLoad]
  repeat' split
  all_goals rfl

/-- A store word likewise (rule R137). -/
theorem diag_decodeWith_store {c : Codes} {w : Word} (h : classify c (opcodeOf w) = .store) :
    (workOf (decodeWith c w)).diag = if wordSubop w = subopOf c.opSw then .none else .unknownStoreSubop := by
  rw [decodeWith, h]
  simp only [decodeStore]
  repeat' split
  all_goals rfl

/-- Settles O29: what is reported is the diagnostic of the word's work, read off category by category. -/
theorem diagnosticOfEveryWord : Obligations.DiagnosticOfEveryWord := by
  refine ⟨fun s t w hcodes h => ?_, rfl⟩
  obtain ⟨-, rfl⟩ := (execute_next_iff w s t).1 h
  have hzero : opcodeOf w = 0 ↔ classify Codes.mipsI (opcodeOf w) = .registerOp :=
    (classify_eq_registerOp_iff _ _).symm
  rw [Work.leaves_diag, hcodes]
  simp only [← classify_mipsI_eq_unknown_iff, ← mem_functs_mipsI_iff, hzero]
  cases category : classify Codes.mipsI (opcodeOf w) with
  | registerOp =>
    rw [diag_decodeWith_registerOp ((classify_eq_registerOp_iff _ _).1 category)]
    by_cases listed : functOf w ∈ Codes.mipsI.functs <;> simp [listed]
  | immediateAlu => simp [diag_decodeWith_immediateAlu category]
  | load =>
    have word : subopOf Codes.mipsI.opLw = 3 := rfl
    simp [diag_decodeWith_load category, word]
  | store =>
    have word : subopOf Codes.mipsI.opSw = 3 := rfl
    simp [diag_decodeWith_store category, word]
  | unknown =>
    rw [decodeWith_of_classify_unknown category, if_pos rfl]
    rfl

end Machine

end Sys2Proof
end

section
/-! PROOFS. The instructions one by one: subtraction, `syscall`, the immediate comparisons, loads and stores; the
unknown cases; and what the ignored fields leave alone (rules R11, R54, R80, R92, R93, R100, R113, R114, R126 to R131,
R136 to R139, R147). -/

namespace Sys2Proof.Machine

/-- Settles O12: the two of each pair are one cycle. -/
theorem signedAndUnsignedArithmeticAgree : Obligations.SignedAndUnsignedArithmeticAgree :=
  fun _ _ _ _ _ _ => ⟨rfl, rfl, rfl⟩

/-- Settles O14: as for addition, with SUB. -/
theorem registerSubtraction : Obligations.RegisterSubtraction :=
  ⟨decodesAsR_of_encode .sub Codes.mipsI.fnSub, decodesAsR_of_encode .subu Codes.mipsI.fnSubu,
    registerForm_of_registerAlu .sub (fun _ _ => rfl), registerForm_of_registerAlu .sub (fun _ _ => rfl)⟩

/-- Settles O19: as for arithmetic, with the two comparisons by value (`lessSigned_eq`, `lessUnsigned_eq`). -/
theorem immediateComparison : Obligations.ImmediateComparison := by
  refine ⟨decodesAsI_of_encode .slti Codes.mipsI.opSlti fun _ _ _ => decode_eq_immediate_iff rfl,
    decodesAsI_of_encode .sltiu Codes.mipsI.opSltiu fun _ _ _ => decode_eq_immediate_iff rfl,
    immediateForm_of_wrote fun s rt rs imm => ?_, immediateForm_of_wrote fun s rt rs imm => ?_⟩
  · rw [← lessSigned_eq]
    exact runCycle_signedImmediateAlu s .slt rt rs imm
  · rw [← lessUnsigned_eq]
    exact runCycle_signedImmediateAlu s .sltu rt rs imm

/-- The words of `syscall` are those of its row of the opcode table, bits 25:6 ignored (rules R54, R100). -/
theorem decode_syscall_iff (w : Word) (ignored : BitVec 20) :
    decode w = .instr (.syscall ignored) ↔ w &&& 0xFC00003F = 0x0000000C ∧ middleOf w = ignored := by
  have row : w &&& 0xFC00003F = 0x0000000C ↔ opcodeOf w = registerOpcode ∧ functOf w = syscallFunct :=
    mask_eq_iff_codes w syscallFunct
  rw [decode_eq_instr_iff, row]
  constructor
  · rintro rfl
    exact ⟨⟨opcodeOf_assembleSyscall ignored, functOf_assembleSyscall ignored⟩, middleOf_assembleSyscall ignored⟩
  · rintro ⟨⟨hop, hfn⟩, rfl⟩
    exact assembleSyscall_of_fields w hop hfn

/-- Settles O17: the row by `decode_syscall_iff`, the effect by the test of register 2. -/
theorem syscallExits : Obligations.SyscallExits := by
  refine ⟨fun w => ⟨fun h => (decode_syscall_iff w _).2 ⟨h, rfl⟩, fun g h => ((decode_syscall_iff w g).1 h).1⟩,
    fun s g => ?_⟩
  obtain ⟨h, hrun⟩ | ⟨h, hrun⟩ := runCycle_exitIfAsked s
  · exact ⟨fun _ => ⟨_, hrun, advances_of_next rfl rfl rfl, rfl, fun _ => rfl, fun _ => rfl, rfl⟩,
      fun hne => absurd h hne⟩
  · exact ⟨fun heq => absurd heq h, fun _ => ⟨_, hrun, s.reported_spec .none⟩⟩

/-- An I-layout instruction of the operand order `op $rt,imm($rs)` has the words of its row of the opcode table. -/
theorem decodesAsL_of_encode (mk : RegIdx → Imm16 → RegIdx → Instr) (op : BitVec 6)
    (word : ∀ rt rs imm, encode (mk rt imm rs) = assembleI op rs rt imm := by intros; rfl) :
    DecodesAsL (op ++ (0 : BitVec 26)) mk :=
  decodesAsL_of_decodesAsI (decodesAsI_of_encode _ op (fun _ _ _ => decode_eq_instr_iff _) word)

/-- The word load writes the word where its read is admitted, and is stuck where it is not (rule R126). -/
theorem loadWord_writes_or_sticks (s : State) (rt rs : RegIdx) (imm : Imm16) :
    (s.admits (s.reg rs + imm.signExtend 32) →
      ∃ t, exec (.lw rt imm rs) s = .next t ∧ WritesRegister s t rt (s.wordAt (s.reg rs + imm.signExtend 32))) ∧
    (¬ s.admits (s.reg rs + imm.signExtend 32) → ∃ f, exec (.lw rt imm rs) s = .fault f) := by
  obtain ⟨h, hrun⟩ | ⟨h, hrun⟩ := runCycle_loadWord s rt imm rs
  · exact ⟨fun _ => ⟨_, hrun, s.wrote_spec rt _⟩, fun hno => absurd h hno⟩
  · exact ⟨fun hok => absurd hok h, fun _ => hrun⟩

/-- The discarded load only reports where its read is admitted, and is stuck where it is not (rule R127). -/
theorem discardLoad_reports_or_sticks (s : State) (imm : Imm16) (rs : RegIdx) :
    (s.admits (s.reg rs + imm.signExtend 32) →
      ∃ t, runCycle s (discardLoad imm rs) = .next t ∧ OnlyReports s t .unknownLoadSubop) ∧
    (¬ s.admits (s.reg rs + imm.signExtend 32) → ∃ f, runCycle s (discardLoad imm rs) = .fault f) := by
  obtain ⟨h, hrun⟩ | ⟨h, hrun⟩ := runCycle_discardLoad s imm rs
  · exact ⟨fun _ => ⟨_, hrun, s.reported_spec .unknownLoadSubop⟩, fun hno => absurd h hno⟩
  · exact ⟨fun hok => absurd hok h, fun _ => hrun⟩

/-- Settles O23: four rows of one cycle, the discarded load. -/
theorem reservedLoads : Obligations.ReservedLoads :=
  ⟨decodesAsL_of_encode .lb Codes.mipsI.opLb, decodesAsL_of_encode .lh Codes.mipsI.opLh,
    decodesAsL_of_encode .lbu Codes.mipsI.opLbu, decodesAsL_of_encode .lhu Codes.mipsI.opLhu,
    fun s _ rs imm => discardLoad_reports_or_sticks s imm rs, fun s _ rs imm => discardLoad_reports_or_sticks s imm rs,
    fun s _ rs imm => discardLoad_reports_or_sticks s imm rs, fun s _ rs imm => discardLoad_reports_or_sticks s imm rs⟩

/-- A cycle that only reports completes in every state. -/
theorem reportOnly_reports (s : State) (k : Diag) :
    ∃ t, runCycle s (reportOnly k) = .next t ∧ OnlyReports s t k :=
  ⟨s.reported k, runCycle_reportOnly s k, s.reported_spec k⟩

/-- Settles O25: two rows of one cycle, the report. -/
theorem reservedStores : Obligations.ReservedStores :=
  ⟨decodesAsL_of_encode .sb Codes.mipsI.opSb, decodesAsL_of_encode .sh Codes.mipsI.opSh,
    fun s _ _ _ => reportOnly_reports s .unknownStoreSubop, fun s _ _ _ => reportOnly_reports s .unknownStoreSubop⟩

/-- The bytes a word store leaves at its address are those of its word, in the memory's order (rule R32). -/
theorem State.byteAt_stored_inside {s : State} (canonical : s.mem.wf = true) (a v : Word) {k : Nat} (hk : k < 4) :
    (s.stored a v).byteAt (byteAddr a k) = byteOfWord s.cfg.byteOrder v k :=
  Memory.byteAt_setWord_inside _ _ canonical a v k hk

/-- Every other byte reads as before. -/
theorem State.byteAt_stored_outside {s : State} (canonical : s.mem.wf = true) (a v : Word) {j : Nat}
    (hj : ∀ k, k < 4 → j ≠ byteAddr a k) : (s.stored a v).byteAt j = s.byteAt j :=
  Memory.byteAt_setWord_outside _ _ canonical a v j hj

/-- Of the effects of a word, only a report reports. -/
theorem Effect.onlyReports {s t : State} {d : Decoded} (h : Effect s d (.next t)) (reports : t.diag ≠ .none) :
    OnlyReports s t t.diag := by
  cases h with
  | reported k => exact s.reported_spec k
  | wrote => exact absurd rfl reports
  | exited => exact absurd rfl reports
  | stored => exact absurd rfl reports

/-- Settles O28: words by their effects, the five cases by the report and the discarded load. -/
theorem unknownCasesAlike : Obligations.UnknownCasesAlike :=
  fun s => ⟨fun w _ h => (h ▸ execute_effect w s).onlyReports, reportOnly_reports s _, reportOnly_reports s _,
    reportOnly_reports s _, reportOnly_reports s _, fun imm rs => (discardLoad_reports_or_sticks s imm rs).1,
    fun imm rs => (discardLoad_reports_or_sticks s imm rs).2⟩

/-- Two words that decode to the same work under the default numbers have the same effect. -/
theorem execute_congr_of_workOf {s : State} (hcodes : s.cfg.codes = Codes.mipsI) {w v : Word}
    (h : workOf (decode w) = workOf (decode v)) : execute w s = execute v s := by
  rw [decode, decode, ← hcodes] at h
  rw [execute_eq_result, execute_eq_result, h]

/-- The work of a register-op word does not depend on `shamt`. -/
theorem workOf_decodeRegister_congr (c : Codes) {w v : Word} (hrs : rsOf w = rsOf v) (hrt : rtOf w = rtOf v)
    (hrd : rdOf w = rdOf v) (hfn : functOf w = functOf v) :
    workOf (decodeRegister c w) = workOf (decodeRegister c v) := by
  simp only [decodeRegister, hrs, hrt, hrd, hfn, apply_ite workOf]
  rfl

/-- Settles O8: in each clause the two words do the same work. -/
theorem unusedFieldsIgnored : Obligations.UnusedFieldsIgnored := by
  intro s w v hcodes
  have lui (x : Word) (hop : opcodeOf x = 15) : decode x = .instr (.lui (rtOf x) (immOf x) (rsOf x)) :=
    (loadUpperImmediate.1 x).1 ((mask_eq_iff_opcode x 15).2 hop)
  have syscall (x : Word) (hop : opcodeOf x = 0) (hfn : functOf x = 12) :
      decode x = .instr (.syscall (middleOf x)) :=
    (syscallExits.1 x).1 ((mask_eq_iff_codes x 12).2 ⟨hop, hfn⟩)
  refine ⟨fun hw hv hrs hrt hrd hfn => execute_congr_of_workOf hcodes ?_,
    fun hw hv hfnw hfnv => execute_congr_of_workOf hcodes ?_,
    fun hw hv hrt himm => execute_congr_of_workOf hcodes ?_⟩
  · rw [decode, decode, decodeWith_register _ w hw, decodeWith_register _ v hv]
    exact workOf_decodeRegister_congr _ hrs hrt hrd hfn
  · rw [syscall w hw hfnw, syscall v hv hfnv]
    rfl
  · rw [lui w hw, lui v hv, hrt, himm]
    rfl

/-- Under the default numbers, executing a word is the instruction it decodes to. -/
theorem execute_of_decode {s : State} (hcodes : s.cfg.codes = Codes.mipsI) {w : Word} {i : Instr}
    (h : decode w = .instr i) : execute w s = exec i s := by
  rw [decode] at h
  rw [execute, hcodes, h]

/-- Settles O30: the sum is written to register 0, and read from it by the next word. -/
theorem registerZeroIsOrdinary : Obligations.RegisterZeroIsOrdinary := by
  intro s hcodes h8 h9
  obtain ⟨-, -, addForm, adduForm⟩ := registerAddition
  obtain ⟨t, ht, first⟩ := addForm s 0 8 9 0
  obtain ⟨u, hu, second⟩ := adduForm t 10 0 8 0
  refine ⟨t, u, (execute_of_decode hcodes (by decide)).trans ht, ?_,
    (execute_of_decode (first.cfg ▸ hcodes) (by decide)).trans hu, ?_⟩
  · rw [first.value, h8, h9]
    rfl
  · rw [second.value, first.value, first.others 8 (by decide), h8, h9]
    rfl

end Sys2Proof.Machine

namespace Sys2Proof

open Machine

/-- Settles O22: the row by `decodesAsL_of_encode`, the effect by everything the word load can do. -/
theorem loadWord : Obligations.LoadWord :=
  ⟨decodesAsL_of_encode .lw Codes.mipsI.opLw, loadWord_writes_or_sticks⟩

/-- Settles O24: the row by `decodesAsL_of_encode`, the memory left by the two laws of a word's write. -/
theorem storeWord : Obligations.StoreWord := by
  refine ⟨decodesAsL_of_encode .sw Codes.mipsI.opSw, fun s rt rs imm canonical => ?_⟩
  obtain ⟨h, hrun⟩ | ⟨h, hrun⟩ := runCycle_storeWord s rt imm rs
  · exact ⟨fun _ => ⟨_, hrun, advances_of_next rfl rfl rfl, fun _ => rfl, rfl, rfl,
      fun _ hk => State.byteAt_stored_inside canonical _ _ hk,
      fun _ hj => State.byteAt_stored_outside canonical _ _ hj⟩,
      fun hno => absurd h hno⟩
  · exact ⟨fun hok => absurd hok h, fun _ => hrun⟩

end Sys2Proof
end

section
/-! PROOFS. Memory: the word as its bytes, when an access is made, and what a later load or fetch sees of a word stored
or placed (rules R31 to R36, R43 to R45, R162). -/

namespace Sys2Proof

theorem byteAddr_zero (a : Word) : byteAddr a 0 = a.toNat := by
  rw [byteAddr_eq, Nat.add_zero, Nat.mod_eq_of_lt a.isLt]

/-- All four bytes of a word are mapped, byte by byte (rule R36). -/
theorem Config.mapsWord_iff (c : Config) (a : Word) : c.mapsWord a = true ↔
    c.isMapped a.toNat = true ∧ c.isMapped (a + 1).toNat = true ∧ c.isMapped (a + 2).toNat = true ∧
      c.isMapped (a + 3).toNat = true := by
  simp only [Config.mapsWord, Bool.and_eq_true, and_assoc, byteAddr_zero]
  rfl

/-- The host's placing maps the word it places. -/
theorem Config.mapsWord_admitting (c : Config) (a : Word) : (c.admitting a).mapsWord a = true := by
  by_cases h : c.mapsWord a = true
  · have same : (c.admitting a).mapped = c.mapped := if_pos h
    simpa only [Config.mapsWord, Config.isMapped, same] using h
  · have added : (c.admitting a).mapped = ([0, 1, 2, 3].map fun k => ⟨byteAddr a k, byteAddr a k⟩) ++ c.mapped :=
      if_neg h
    simp [Config.mapsWord, Config.isMapped, added]

namespace Machine

/-- Settles O31: the address of the first byte is the word's; the rest is the definitions' two orders. -/
theorem wordFromBytes : Obligations.WordFromBytes := by
  intro s a v
  refine ⟨fun h => ?_, fun h => ?_, rfl, rfl, rfl, rfl, rfl, rfl, rfl, rfl⟩
  all_goals
    rw [State.wordAt, Memory.wordAt, h, byteAddr_zero]
    rfl

/-- Settles O32: the condition is `State.admits`, and the laws of the two accesses say what follows. -/
theorem accessAdmittedExactly : Obligations.AccessAdmittedExactly := by
  intro s kind a v good
  have hgood : good ↔ s.admits a := and_congr_left' (s.cfg.mapsWord_iff a).symm
  rw [hgood]
  exact ⟨fun h => ⟨s.memRead_of_admits kind a h, _, s.memWrite_of_admits a v h⟩,
    fun h => ⟨s.memRead_of_not kind a h, s.memWrite_of_not a v h⟩⟩

/-- A word store that completes was admitted, and left its word stored. -/
theorem exec_sw_next {s t : State} {rt rs : RegIdx} {imm : Imm16} (h : exec (.sw rt imm rs) s = .next t) :
    s.admits (s.reg rs + imm.signExtend 32) ∧ t = s.stored (s.reg rs + imm.signExtend 32) (s.reg rt) := by
  rw [exec_eq_result, outcomeOf_next_iff, Work.result_ok_iff] at h
  obtain ⟨ok, ht⟩ := h
  exact ⟨(s.checkAccess_ok_iff _ _).1 ok, ht⟩

/-- And one that is admitted completes. -/
theorem exec_sw_of_admits {s : State} {rt rs : RegIdx} {imm : Imm16} (h : s.admits (s.reg rs + imm.signExtend 32)) :
    exec (.sw rt imm rs) s = .next (s.stored (s.reg rs + imm.signExtend 32) (s.reg rt)) := by
  rw [exec_eq_result, outcomeOf_next_iff, Work.result_ok_iff]
  exact ⟨(s.checkAccess_ok_iff _ _).2 h, rfl⟩

/-- The word stored is the word there (rule R43). -/
theorem State.wordAt_stored {s : State} (canonical : s.mem.wf = true) (a v : Word) : (s.stored a v).wordAt a = v :=
  Memory.wordAt_setWord _ _ canonical a v

/-- The parameters alone say which accesses are admitted. -/
theorem State.admits_congr {s u : State} (hcfg : u.cfg = s.cfg) (a : Word) : u.admits a ↔ s.admits a := by
  rw [State.admits, hcfg, State.admits]

/-- The word at an address depends on its four bytes and the byte order. -/
theorem State.wordAt_congr {s u : State} (hcfg : u.cfg = s.cfg) {a : Word}
    (bytes : ∀ k, k < 4 → u.byteAt (byteAddr a k) = s.byteAt (byteAddr a k)) : u.wordAt a = s.wordAt a := by
  simp only [State.byteAt] at bytes
  simp only [State.wordAt, Memory.wordAt, hcfg, bytes 0 (by omega), bytes 1 (by omega), bytes 2 (by omega),
    bytes 3 (by omega)]

/-- A read of an admitted address answers the word known to be there. -/
theorem State.memRead_of_wordAt {s : State} {a v : Word} (kind : Access) (ok : s.admits a) (hword : s.wordAt a = v) :
    s.memRead kind a = .ok v :=
  (s.memRead_of_admits kind a ok).trans (congrArg Except.ok hword)

/-- A running step executes the word known to be at its program counter. -/
theorem step_of_wordAt {s : State} {v : Word} (hrun : s.run = true) (ok : s.admits s.current.pc)
    (hword : s.wordAt s.current.pc = v) : step s = execute v s :=
  (step_running s hrun ok).trans (congrArg (execute · s) hword)

@[simp] theorem State.admits_stored (s : State) (a v a' : Word) : (s.stored a v).admits a' ↔ s.admits a' := Iff.rfl

/-- Settles O33: the load is admitted where the store was, and reads the same four bytes. -/
theorem loadReturnsStoredWord : Obligations.LoadReturnsStoredWord := by
  intro s t u rt rt' rs rs' imm imm' canonical h hcfg bytes haddr
  obtain ⟨ok, rfl⟩ := exec_sw_next h
  have hword : u.wordAt (s.reg rs + imm.signExtend 32) = s.reg rt :=
    (State.wordAt_congr hcfg bytes).trans (State.wordAt_stored canonical _ _)
  have ok' : u.admits (s.reg rs + imm.signExtend 32) := (State.admits_congr hcfg _).2 ok
  rw [← haddr] at hword ok'
  obtain ⟨v, hv, writes⟩ := (loadWord_writes_or_sticks u rt' rs' imm').1 ok'
  exact ⟨v, hv, writes.value.trans hword⟩

/-- Settles O34: the store's address is the program counter it leaves, by value, so the next fetch reads there. -/
theorem storeSeenByNextFetch : Obligations.StoreSeenByNextFetch := by
  intro s t rt rs imm canonical hrun h haddr
  obtain ⟨ok, rfl⟩ := exec_sw_next h
  have hpc : s.reg rs + imm.signExtend 32 = s.cfg.nextPc s.current.pc :=
    BitVec.eq_of_toNat_eq (haddr.trans (s.cfg.toNat_nextPc s.current.pc).symm)
  rw [hpc] at ok ⊢
  have ok' := (s.admits_stored (s.cfg.nextPc s.current.pc) (s.reg rt) _).2 ok
  have hword := State.wordAt_stored canonical (s.cfg.nextPc s.current.pc) (s.reg rt)
  exact ⟨State.memRead_of_wordAt .fetch ok' hword, step_of_wordAt hrun ok' hword⟩

/-- Settles O35: the word was fetched before it is overwritten, and the fetch being admitted, so is the store. -/
theorem selfStoreExecutesAsFetched : Obligations.SelfStoreExecutesAsFetched := by
  intro s rt rs imm canonical hrun ok hdecode haddr
  have hexec : exec (.sw rt imm rs) s = .next (s.stored s.current.pc (s.reg rt)) := by
    rw [← haddr] at ok ⊢
    exact exec_sw_of_admits ok
  refine ⟨s.stored s.current.pc (s.reg rt), ((stepRunsDecodedInstruction s hrun ok).1 _ hdecode).trans hexec, hexec, ?_⟩
  exact State.memRead_of_wordAt .fetch ((s.admits_stored _ _ _).2 ok) (State.wordAt_stored canonical _ _)

/-- The host's placing admits the fetch of the word it places. -/
theorem State.admits_placeWord (s : State) (v : Word) : (s.placeWord v).admits s.current.pc := by
  refine ⟨Config.mapsWord_admitting _ _, fun hrefuse => ?_⟩
  by_contra misaligned
  simp [Config.admitting, misaligned] at hrefuse

/-- Settles O38: the step fetches at the program counter, where the word placed is. -/
theorem placedWordIsExecuted : Obligations.PlacedWordIsExecuted := by
  intro s nbits w canonical
  have hword : (s.placeWord (tableWord nbits w)).wordAt s.current.pc = tableWord nbits w :=
    Memory.wordAt_setWord _ _ canonical _ _
  exact step_of_wordAt (s := s.placeWord (tableWord nbits w)) rfl (s.admits_placeWord _) hword

end Machine

end Sys2Proof
end
